-- ==== Sys2Proof/Word.lean ====
section
/-! DEFINITION. The word types of the machine (spec/00_scope.md R5, R7): a byte, and the nine-bit
value that holds an eight-bit address together with the carry of its incrementer. -/

namespace Sys2Proof

/-- A byte: data width, register width, opcode and operand width (R5). Every byte is unsigned (R7). -/
abbrev Byte := BitVec 8

/-- An address cursor of nine bits: an eight-bit address and a carry bit (10_state.md R17, R19). -/
abbrev Cursor := BitVec 9

end Sys2Proof
end

