-- ==== Sys2Proof/Machine/Flags.lean ====
section
/-! DEFINITION. The flags register's fields and the value CMP gives it (spec/10_state.md R21, 41_alu.md R77). -/

namespace Sys2Proof.Machine

/-- E: bit 0. -/
def flagE : Byte := 0b00000001

/-- G: bit 1. -/
def flagG : Byte := 0b00000010

/-- L: bit 2. -/
def flagL : Byte := 0b00000100

/-- The flags of an unsigned comparison (41_alu.md R77): exactly one of E, G and L, every other bit 0. -/
def compareFlags (a b : Byte) : Byte :=
  if a = b then flagE
  else if b.toNat < a.toNat then flagG
  else flagL

/-- `fl[0] = 1`: what JEQ and JNE test (44_control.md R90, R91). -/
def equalSet (fl : Byte) : Bool := fl.getLsbD 0

end Sys2Proof.Machine
end

