-- ==== Sys2Proof/Config.lean ====
section
/-! DEFINITION. The model's parameters (spec/00_scope.md R6: "A model built from this spec takes them as a
configuration record"), and the free values of the two places where the spec leaves a value open. The defaults
of the parameters stand in `Machine/Params.lean`, the default opcode map in `Decode.lean`. -/

namespace Sys2Proof

/-- `ADDR_POLICY`: what an address of 256 or more does (20_memory.md R36, 92_eei_decisions.md D4). -/
inductive AddrPolicy where
  | fault
  | wrap8
  deriving DecidableEq, Repr

/-- `REG_INDEX_POLICY`: what a register operand of 8 or more does (10_state.md R16, 92_eei_decisions.md D3). -/
inductive RegIndexPolicy where
  | fault
  | mask3
  deriving DecidableEq, Repr

/-- `SP_WRAP`: the modulus of the stack-pointer arithmetic (10_state.md R20, 92_eei_decisions.md D5). -/
inductive SpWrap where
  | at256
  | at257
  deriving DecidableEq, Repr

/-- `CALL_RET_MODE`: whether CALL transfers control and RET restores sp (44_control.md R87, R88,
92_eei_decisions.md D6). -/
inductive CallRetMode where
  | table
  | observed
  deriving DecidableEq, Repr

/-- `OPCODE_MAP`: the opcode byte of each of the 13 mnemonics (30_encoding.md R52, R53). -/
structure OpcodeMap where
  hlt : Byte
  ldi : Byte
  prn : Byte
  add : Byte
  mul : Byte
  cmp : Byte
  push : Byte
  pop : Byte
  call : Byte
  ret : Byte
  jmp : Byte
  jeq : Byte
  jne : Byte
  deriving DecidableEq, Repr

/-- The configuration record of R6: one field per model parameter. -/
structure Config where
  opcodes : OpcodeMap
  addrPolicy : AddrPolicy
  regIndexPolicy : RegIndexPolicy
  spWrap : SpWrap
  callRetMode : CallRetMode
  deriving DecidableEq, Repr

/-- FREE VALUE (log entry 7): the byte at an address after the load of an image that is too long, which
70_reset_and_hazards.md R111 calls unspecified. It may depend on the image and on what memory held. -/
opaque Config.overlongByte (image : List Byte) (before : List (Nat × Byte)) (addr : Nat) : Byte

/-- FREE VALUE (log entry 15): what the load controller's nine-bit counter holds from the 257th offered byte on, of
which 70_reset_and_hazards.md R116 says nothing. It may depend on what the counter held and on the byte offered. -/
opaque Config.countPastFault (count : Cursor) (offered : Byte) : Cursor

/-- FREE VALUE (log entry 16): what the port `fault_code` carries while `fault = 0`, where 70_reset_and_hazards.md R116
gives it no meaning. It may depend on whether the core has halted. -/
opaque Config.idleFaultCode (halted : Bool) : BitVec 3

/-- FREE VALUE (log entry 9): the line terminator the host writes after each printed number, which
42_load_io_halt.md R84 and 93_implementation_defined.md I12 leave open. -/
opaque Config.lineTerminator : List Char

end Sys2Proof
end

