-- ==== Sys2Proof/Syntax.lean ====
section
/-! DEFINITION. The instructions of spec/opcode_table.json, one constructor per row, in the table's order
(30_encoding.md R53). An operand is the whole operand byte (R49, R50): a register operand of 8 or more is still an
instruction, whose body goes by REG_INDEX_POLICY (10_state.md R16). -/

namespace Sys2Proof

/-- The 13 mnemonics (30_encoding.md R53). -/
inductive Mnemonic where
  | hlt | ldi | prn | add | mul | cmp | push | pop | call | ret | jmp | jeq | jne
  deriving DecidableEq, Repr

/-- The four instruction formats (30_encoding.md R47). -/
inductive Format where
  | f0
  | f1r
  | f2ri
  | f2rr
  deriving DecidableEq, Repr

/-- An instruction: a mnemonic and the operand bytes its format names. -/
inductive Instr where
  /-- HLT (R81). -/
  | hlt
  /-- LDI Ra, imm (R82). -/
  | ldi (a imm : Byte)
  /-- PRN Ra (R83). -/
  | prn (a : Byte)
  /-- ADD Ra, Rb (R75). -/
  | add (a b : Byte)
  /-- MUL Ra, Rb (R76). -/
  | mul (a b : Byte)
  /-- CMP Ra, Rb (R77). -/
  | cmp (a b : Byte)
  /-- PUSH Ra (R85). -/
  | push (a : Byte)
  /-- POP Ra (R86). -/
  | pop (a : Byte)
  /-- CALL Ra (R87). -/
  | call (a : Byte)
  /-- RET (R88). -/
  | ret
  /-- JMP Ra (R89). -/
  | jmp (a : Byte)
  /-- JEQ Ra (R90). -/
  | jeq (a : Byte)
  /-- JNE Ra (R91). -/
  | jne (a : Byte)
  deriving DecidableEq, Repr

end Sys2Proof
end

