-- ==== Sys2Proof/Decode.lean ====
section
/-! DEFINITION. The opcode map, the decoder and the encoder (spec/30_encoding.md). The decoder matches the whole
opcode byte against the map and nothing else (R48, R52); it is total and rejects every other byte by name (R55). -/

namespace Sys2Proof

/-- The default `OPCODE_MAP` (30_encoding.md R53, opcode_table.json). UNVERIFIED by the source document: the bytes
are the spec's decision D1 (log entry 4). -/
def OpcodeMap.ls8 : OpcodeMap where
  hlt := 0x01
  ldi := 0x82
  prn := 0x47
  add := 0xA0
  mul := 0xA2
  cmp := 0xA7
  push := 0x45
  pop := 0x46
  call := 0x50
  ret := 0x11
  jmp := 0x54
  jeq := 0x55
  jne := 0x56

/-- The byte the map gives a mnemonic. -/
def OpcodeMap.byteOf (m : OpcodeMap) : Mnemonic → Byte
  | .hlt => m.hlt
  | .ldi => m.ldi
  | .prn => m.prn
  | .add => m.add
  | .mul => m.mul
  | .cmp => m.cmp
  | .push => m.push
  | .pop => m.pop
  | .call => m.call
  | .ret => m.ret
  | .jmp => m.jmp
  | .jeq => m.jeq
  | .jne => m.jne

/-- The 13 mnemonics in the order of the opcode table (30_encoding.md R53). -/
def Mnemonic.all : List Mnemonic :=
  [.hlt, .ldi, .prn, .add, .mul, .cmp, .push, .pop, .call, .ret, .jmp, .jeq, .jne]

/-- The format of each mnemonic (30_encoding.md R47). -/
def Mnemonic.format : Mnemonic → Format
  | .hlt => .f0
  | .ldi => .f2ri
  | .prn => .f1r
  | .add => .f2rr
  | .mul => .f2rr
  | .cmp => .f2rr
  | .push => .f1r
  | .pop => .f1r
  | .call => .f1r
  | .ret => .f0
  | .jmp => .f1r
  | .jeq => .f1r
  | .jne => .f1r

/-- How many operand bytes a format has (30_encoding.md R47). -/
def Format.operandCount : Format → Nat
  | .f0 => 0
  | .f1r => 1
  | .f2ri => 2
  | .f2rr => 2

/-- The operand-count field of an opcode byte, `n = opcode[7:6]` (30_encoding.md R48, R51; 40_fetch_decode.md
R63): 0..3, for illegal bytes too. -/
def operandField (ir : Byte) : Nat := (ir >>> 6).toNat

/-- The mnemonic of an instruction. -/
def Instr.mnemonic : Instr → Mnemonic
  | .hlt => .hlt
  | .ldi _ _ => .ldi
  | .prn _ => .prn
  | .add _ _ => .add
  | .mul _ _ => .mul
  | .cmp _ _ => .cmp
  | .push _ => .push
  | .pop _ => .pop
  | .call _ => .call
  | .ret => .ret
  | .jmp _ => .jmp
  | .jeq _ => .jeq
  | .jne _ => .jne

/-- The operand bytes of an instruction, in the order they lie in memory (30_encoding.md R47). -/
def Instr.operands : Instr → List Byte
  | .hlt => []
  | .ldi a imm => [a, imm]
  | .prn a => [a]
  | .add a b => [a, b]
  | .mul a b => [a, b]
  | .cmp a b => [a, b]
  | .push a => [a]
  | .pop a => [a]
  | .call a => [a]
  | .ret => []
  | .jmp a => [a]
  | .jeq a => [a]
  | .jne a => [a]

/-- The operand bytes that are register indices, in the order they are checked (10_state.md R16, 60_exceptions.md
R101). -/
def Instr.regOperands : Instr → List Byte
  | .hlt => []
  | .ldi a _ => [a]
  | .prn a => [a]
  | .add a b => [a, b]
  | .mul a b => [a, b]
  | .cmp a b => [a, b]
  | .push a => [a]
  | .pop a => [a]
  | .call a => [a]
  | .ret => []
  | .jmp a => [a]
  | .jeq a => [a]
  | .jne a => [a]

/-- Why the decoder rejects (30_encoding.md R55): the only reason is an opcode byte the map does not hold. -/
inductive Reject where
  | illegalOpcode (ir : Byte)
  deriving DecidableEq, Repr

/-- The mnemonic whose byte is `ir`, if there is one (30_encoding.md R52). -/
def OpcodeMap.mnemonicOf (m : OpcodeMap) (ir : Byte) : Option Mnemonic :=
  Mnemonic.all.find? fun k => m.byteOf k == ir

/-- An instruction from its mnemonic and the two candidate operand bytes; a format takes the bytes it names and
ignores the rest (30_encoding.md R47, R56). -/
def assemble (k : Mnemonic) (a b : Byte) : Instr :=
  match k with
  | .hlt => .hlt
  | .ldi => .ldi a b
  | .prn => .prn a
  | .add => .add a b
  | .mul => .mul a b
  | .cmp => .cmp a b
  | .push => .push a
  | .pop => .pop a
  | .call => .call a
  | .ret => .ret
  | .jmp => .jmp a
  | .jeq => .jeq a
  | .jne => .jne a

/-- The decoder on the three latched bytes (30_encoding.md R52, R55; 40_fetch_decode.md R65, R66). Only `ir` decides
whether there is an instruction and which; `opA` and `opB` are its operands. -/
def decode (m : OpcodeMap) (ir opA opB : Byte) : Except Reject Instr :=
  match m.mnemonicOf ir with
  | some k => .ok (assemble k opA opB)
  | none => .error (.illegalOpcode ir)

/-- The encoder: the bytes of an instruction at ascending addresses (30_encoding.md R46, R47; 20_memory.md R34). -/
def encode (m : OpcodeMap) (i : Instr) : List Byte :=
  m.byteOf i.mnemonic :: i.operands

/-- Byte `k` of an instruction whose bits are numbered as opcode_table.json numbers them (byte 0 the opcode, bits
7..0); every bit from `nbits` up is 0. -/
def tableByte (nbits w k : Nat) : Byte := BitVec.ofNat 8 ((w % 2 ^ nbits) / 2 ^ (8 * k))

/-- What the decoder reads from the table word `w` of `nbits` bits, under the default opcode map. -/
def decodeTableWord (nbits w : Nat) : Option Instr :=
  match decode OpcodeMap.ls8 (tableByte nbits w 0) (tableByte nbits w 1) (tableByte nbits w 2) with
  | .ok i => some i
  | .error _ => none

end Sys2Proof
end

