-- ==== Sys2Proof/Machine/Params.lean ====
section
/-! DEFINITION. The default value of every model parameter (spec/00_scope.md R6). -/

namespace Sys2Proof

/-- The defaults of R6 (decisions D1, D3, D4, D5, D6). -/
def Config.default : Config where
  opcodes := OpcodeMap.ls8
  addrPolicy := .fault
  regIndexPolicy := .fault
  spWrap := .at256
  callRetMode := .table

end Sys2Proof
end

