-- ==== Sys2Proof/Machine/State.lean ====
section
/-! DEFINITION. The state of the CORE (spec/10_state.md R30), the fatal errors of spec/60_exceptions.md R94, and the
reset state (R30, 70_reset_and_hazards.md R108). Every operation on the state stands in the other files of Machine/. -/

namespace Sys2Proof.Machine

/-- The fatal errors with the info each records (60_exceptions.md R94). -/
inductive Fatal where
  /-- Code 1, by the image load: the image length (R96). -/
  | capacityError (len : Nat)
  /-- Code 2, by a step whose opcode byte is illegal (R97). -/
  | decodeError (ir : Byte) (pc0 : Cursor)
  /-- Code 3, by the ALU with selector 0b11; no step reaches it (R98). -/
  | unsupportedAluOp (sel : BitVec 2) (pc0 : Cursor)
  /-- Code 4, by an access to an address of 256 or more under ADDR_POLICY = fault (R100). -/
  | addressOutOfRange (addr : Nat) (pc0 : Cursor)
  /-- Code 5, by a register operand of 8 or more under REG_INDEX_POLICY = fault (R99). -/
  | badRegister (index : Byte) (pc0 : Cursor)
  deriving DecidableEq, Repr

/-- The run status (10_state.md R27). -/
inductive Status where
  | running
  | halted
  | faulted (f : Fatal)
  deriving DecidableEq, Repr

/-- Memory: the listed bytes, addresses strictly rising, none equal to what an unlisted byte reads as. -/
abbrev Memory := List Host.Cell

/-- The complete state (10_state.md R30), and the model's own `pc0` and `cfg`. -/
structure State where
  /-- `x[0]`..`x[7]` (R13); read by `State.x`, written by `State.setX`. -/
  regs : Vector Byte 8
  /-- The program counter with the incrementer's carry as bit 8 (R17). -/
  pc : Cursor
  /-- The internal stack pointer (R19); never aliased with `x[7]` (R14). -/
  sp : Cursor
  /-- The flags: E bit 0, G bit 1, L bit 2 (R21). -/
  fl : Byte
  /-- The instruction register (R23). -/
  ir : Byte
  /-- The candidate operand latches (R24). -/
  opA : Byte
  opB : Byte
  /-- The 256 bytes of memory (R29). -/
  mem : Memory
  /-- The run status (R27). -/
  status : Status
  /-- The output stream, oldest byte first (R28). -/
  out : List Byte
  /-- THE MODEL'S OWN: the value of `pc` at the start of the current step (00_scope.md R8), which a fault
  records (60_exceptions.md R94). Written with the latches (log entry 2). -/
  pc0 : Cursor
  /-- THE MODEL'S OWN: the configuration record of 00_scope.md R6. No step changes it (log entry 1). -/
  cfg : Config
  deriving DecidableEq, Repr

/-- Why `step` gives no next state. The spec's fatal errors are NOT here: they are the status of a next state
(60_exceptions.md R95). A state that is not Running has no step (00_scope.md R10), and `step` says which. -/
inductive Fault where
  /-- Raised by `step` in the status Halted: the clean end (R81, R103). Safe: the spec gives no step. -/
  | halted
  /-- Raised by `step` in the status Faulted: terminal (R95). Safe: the spec gives no step. -/
  | faulted (f : Fatal)
  deriving DecidableEq, Repr

/-- Why an instruction has no meaning in the model. -/
inductive Refusal where
  /-- An instruction not modelled yet, by its table mnemonic. No arm of `exec` uses it. Safe. -/
  | notModelled (mnemonic : String)
  deriving DecidableEq, Repr

/-- The reset state under a configuration, with no image loaded (10_state.md R30; 70_reset_and_hazards.md R108). -/
def State.resetWith (c : Config) : State where
  regs := #v[0, 0, 0, 0, 0, 0, 0, 255]
  pc := 0
  sp := 255
  fl := 0
  ir := 0
  opA := 0
  opB := 0
  mem := []
  status := .running
  out := []
  pc0 := 0
  cfg := c

/-- The machine right after reset, with the default parameters of 00_scope.md R6. -/
def State.reset : State := State.resetWith Config.default

end Sys2Proof.Machine
end

