-- ==== Sys2Proof/Machine/Memory.lean ====
section
/-! DEFINITION. Memory as data (spec/10_state.md R29, 20_memory.md R32): 256 bytes, kept as a list of address and
byte pairs in one canonical form. -/

namespace Sys2Proof.Machine

/-- What an unlisted address reads as: 0, the spec's reset content of memory outside the image (10_state.md R30). -/
def Memory.unlisted : Byte := 0

/-- The number of bytes of the address space (00_scope.md R5). -/
def Memory.size : Nat := 256

/-- The byte at an address. -/
def Memory.read : Memory → Nat → Byte
  | [], _ => Memory.unlisted
  | (b, w) :: m, a => if a = b then w else Memory.read m a

/-- Put a byte in front of a memory, leaving out the value an unlisted address reads as. -/
def Memory.cons (a : Nat) (v : Byte) (m : Memory) : Memory :=
  if v = Memory.unlisted then m else (a, v) :: m

/-- Memory with the byte at `a` replaced by `v`. -/
def Memory.write : Memory → Nat → Byte → Memory
  | [], a, v => Memory.cons a v []
  | (b, w) :: m, a, v =>
    if a < b then Memory.cons a v ((b, w) :: m)
    else if a = b then Memory.cons a v m
    else (b, w) :: Memory.write m a v

/-- The memory that holds the given bytes at `a`, `a + 1`, … and nothing else (70_reset_and_hazards.md R111). -/
def Memory.ofBytes (a : Nat) : List Byte → Memory
  | [] => []
  | v :: vs => Memory.cons a v (Memory.ofBytes (a + 1) vs)

/-- The canonical form: addresses strictly rising and inside the address space, and no entry that says what an
unlisted address reads as. -/
abbrev Memory.wf (m : Memory) : Prop :=
  m.Pairwise (fun p q => p.1 < q.1) ∧ ∀ p ∈ m, p.1 < Memory.size ∧ p.2 ≠ Memory.unlisted

end Sys2Proof.Machine
end

