-- ==== Sys2Proof/Machine/Ops.lean ====
section
/-! DEFINITION. The named operations on registers, memory, stack pointer, program counter, output and status, and
the ONE operation by which a fatal error is taken (spec/10_state.md, 20_memory.md, 60_exceptions.md). There is no
return from an exception beside it: the CORE has no trap return (60_exceptions.md R93, R104). -/

namespace Sys2Proof.Machine

/-- What a body or a step answers. -/
abbrev Result := Host.Outcome State Fault Refusal

/-! ## Registers and latches -/

/-- `x[i]` (00_scope.md R8). -/
def State.x (s : State) (i : Fin 8) : Byte := s.regs[i]

/-- `x[i] <- v`. -/
def State.setX (s : State) (i : Fin 8) (v : Byte) : State := { s with regs := s.regs.set i v }

/-- `sp <- v`. -/
def State.setSp (s : State) (v : Cursor) : State := { s with sp := v }

/-- `fl <- v`. -/
def State.setFl (s : State) (v : Byte) : State := { s with fl := v }

/-- `pc <- t` for an absolute eight-bit target (10_state.md R18, 44_control.md R92). -/
def State.jump (s : State) (t : Byte) : State := { s with pc := t.setWidth 9 }

/-- The memory with one byte replaced. -/
def State.storeByte (s : State) (a : Nat) (v : Byte) : State := { s with mem := s.mem.write a v }

/-- `emit(v)`: append to the output stream (00_scope.md R9, 42_load_io_halt.md R83). -/
def State.emit (s : State) (v : Byte) : State := { s with out := s.out ++ [v] }

/-! ## Ending a run -/

/-- `halt` (00_scope.md R9). -/
def State.halt (s : State) : State := { s with status := .halted }

/-- `raise F(info)` (00_scope.md R9, 60_exceptions.md R95): the status becomes Faulted and nothing else changes.
Writes made earlier in the step stay; nothing is saved and no handler is entered (R93). -/
def State.raise (s : State) (f : Fatal) : State := { s with status := .faulted f }

/-- Why a state that is not Running has no step (00_scope.md R10). -/
def Status.stopReason : Status → Option Fault
  | .running => none
  | .halted => some .halted
  | .faulted f => some (.faulted f)

/-! ## The program counter and the stack pointer -/

/-- `adv(p, n)` (40_fetch_decode.md R64): nine bits under `fault`, modulo 256 under `wrap8`. -/
def advance (p : AddrPolicy) (pc : Cursor) (n : Nat) : Cursor :=
  match p with
  | .fault => BitVec.ofNat 9 (pc.toNat + 1 + n)
  | .wrap8 => BitVec.ofNat 9 ((pc.toNat + 1 + n) % 256)

end Sys2Proof.Machine

namespace Sys2Proof

/-- The modulus itself (10_state.md R20). -/
def SpWrap.modulus : SpWrap → Nat
  | .at256 => 256
  | .at257 => 257

end Sys2Proof

namespace Sys2Proof.Machine

/-- `sp_dec(s) = (s - 1) mod SP_WRAP` (10_state.md R20). -/
def spDec (w : SpWrap) (sp : Cursor) : Cursor :=
  BitVec.ofNat 9 ((sp.toNat + w.modulus - 1) % w.modulus)

/-- `sp_inc(s) = (s + 1) mod SP_WRAP` (10_state.md R20). -/
def spInc (w : SpWrap) (sp : Cursor) : Cursor :=
  BitVec.ofNat 9 ((sp.toNat + 1) % w.modulus)

/-! ## Memory accesses -/

/-- `addr_ok(a)` (20_memory.md R36): the address accessed, or none where the access raises AddressOutOfRange. -/
def addrOk (p : AddrPolicy) (a : Nat) : Option Nat :=
  if a ≤ 255 then some a
  else match p with
    | .fault => none
    | .wrap8 => some (a % 256)

/-- `MemRead(a, 1)` (20_memory.md R37), then what the body does with the byte. -/
def memRead (s : State) (a : Nat) (k : Byte → Result) : Result :=
  match addrOk s.cfg.addrPolicy a with
  | some b => k (s.mem.read b)
  | none => .next (s.raise (.addressOutOfRange a s.pc0))

/-- `MemWrite(a, 1, v)` (20_memory.md R37), then what the body does next. -/
def memWrite (s : State) (a : Nat) (v : Byte) (k : State → Result) : Result :=
  match addrOk s.cfg.addrPolicy a with
  | some b => k (s.storeByte b v)
  | none => .next (s.raise (.addressOutOfRange a s.pc0))

/-- The push of PUSH and CALL: decrement sp, then write at the new sp (43_stack.md R85, 44_control.md R87). The sp
write stays when the memory write raises (60_exceptions.md R102). -/
def pushByte (s : State) (v : Byte) (k : State → Result) : Result :=
  let s' := s.setSp (spDec s.cfg.spWrap s.sp)
  memWrite s' s'.sp.toNat v k

/-- Store the bytes of a table word where the fetch at `pc` reads them (20_memory.md R34, R36). -/
def State.placeWord (s : State) (nbits w : Nat) : State :=
  ((s.storeByte (s.pc.toNat % 256) (tableByte nbits w 0)).storeByte
    ((s.pc.toNat + 1) % 256) (tableByte nbits w 1)).storeByte
    ((s.pc.toNat + 2) % 256) (tableByte nbits w 2)

end Sys2Proof.Machine
end

