-- ==== Sys2Proof/Machine/Operands.lean ====
section
/-! DEFINITION. The operand forms (spec/30_encoding.md R47, R49; 10_state.md R16). The one form that needs work is
the register operand; LDI's immediate is its operand byte unchanged (30_encoding.md R50). -/

namespace Sys2Proof.Machine

/-- `reg(i)` (10_state.md R16): the register an operand byte names, or none where it raises BadRegister. -/
def regIndex (p : RegIndexPolicy) (i : Byte) : Option (Fin 8) :=
  if h : i.toNat < 8 then some ⟨i.toNat, h⟩
  else match p with
    | .fault => none
    | .mask3 => some ⟨i.toNat % 8, Nat.mod_lt _ (by decide)⟩

/-- `r <- reg(i)` at the start of a body, then the rest of the body; BadRegister is raised before any write of the
body (60_exceptions.md R99). -/
def withReg (s : State) (i : Byte) (k : Fin 8 → Result) : Result :=
  match regIndex s.cfg.regIndexPolicy i with
  | some r => k r
  | none => .next (s.raise (.badRegister i s.pc0))

end Sys2Proof.Machine
end

