-- ==== Sys2Proof/Machine/Alu.lean ====
section
/-! DEFINITION. The ALU and its instructions ADD, MUL and CMP (spec/41_alu.md). -/

namespace Sys2Proof.Machine

/-- What the ALU drives for one operation (41_alu.md R73): `Y` with `we`, or `F` with `fwe`. -/
inductive AluOutput where
  | result (y : Byte)
  | flags (f : Byte)
  deriving DecidableEq, Repr

/-- The selector table (41_alu.md R74): 0b00 ADD, 0b01 MUL, 0b10 CMP, 0b11 unsupported. -/
def aluOutput (sel : BitVec 2) (a b : Byte) : Option AluOutput :=
  if sel = 0b00 then some (.result (a + b))
  else if sel = 0b01 then some (.result (a * b))
  else if sel = 0b10 then some (.flags (compareFlags a b))
  else none

/-- The ALU on two register indices (41_alu.md R73, R79): both sources are read, then one write is made. -/
def alu (s : State) (sel : BitVec 2) (ra rb : Fin 8) : Result :=
  match aluOutput sel (s.x ra) (s.x rb) with
  | some (.result y) => .next (s.setX ra y)
  | some (.flags f) => .next (s.setFl f)
  | none => .next (s.raise (.unsupportedAluOp sel s.pc0))

/-- The two register operands of format F2RR, operand a checked before operand b (60_exceptions.md R101). -/
def aluInstr (s : State) (sel : BitVec 2) (a b : Byte) : Result :=
  withReg s a fun ra => withReg s b fun rb => alu s sel ra rb

/-- ADD (41_alu.md R75). -/
def execAdd (a b : Byte) (s : State) : Result := aluInstr s 0b00 a b

/-- MUL (41_alu.md R76). -/
def execMul (a b : Byte) (s : State) : Result := aluInstr s 0b01 a b

/-- CMP (41_alu.md R77). -/
def execCmp (a b : Byte) (s : State) : Result := aluInstr s 0b10 a b

end Sys2Proof.Machine
end

