-- ==== Sys2Proof/Machine/Control.lean ====
section
/-! DEFINITION. CALL, RET, JMP, JEQ and JNE (spec/44_control.md). Each body sees the advanced pc
(40_fetch_decode.md R65). -/

namespace Sys2Proof.Machine

/-- CALL (R87): the low byte of the advanced pc is pushed; only table mode transfers control. -/
def execCall (a : Byte) (s : State) : Result :=
  withReg s a fun ra => pushByte s (s.pc.setWidth 8) fun s' =>
    .next (if s.cfg.callRetMode = .table then s'.jump (s.x ra) else s')

/-- RET (R88): only table mode restores sp. -/
def execRet (s : State) : Result :=
  memRead s s.sp.toNat fun v =>
    .next (if s.cfg.callRetMode = .table then (s.jump v).setSp (spInc s.cfg.spWrap s.sp) else s.jump v)

/-- JMP (R89). -/
def execJmp (a : Byte) (s : State) : Result :=
  withReg s a fun ra => .next (s.jump (s.x ra))

/-- JEQ (R90): the register operand is checked whether or not the branch is taken. -/
def execJeq (a : Byte) (s : State) : Result :=
  withReg s a fun ra => .next (if equalSet s.fl then s.jump (s.x ra) else s)

/-- JNE (R91): the register operand is checked whether or not the branch is taken. -/
def execJne (a : Byte) (s : State) : Result :=
  withReg s a fun ra => .next (if equalSet s.fl then s else s.jump (s.x ra))

end Sys2Proof.Machine
end

