-- ==== Sys2Proof/Machine/LoadIoHalt.lean ====
section
/-! DEFINITION. HLT, LDI and PRN (spec/42_load_io_halt.md). -/

namespace Sys2Proof.Machine

/-- HLT (R81). -/
def execHlt (s : State) : Result := .next s.halt

/-- LDI (R82). -/
def execLdi (a imm : Byte) (s : State) : Result :=
  withReg s a fun ra => .next (s.setX ra imm)

/-- PRN (R83). -/
def execPrn (a : Byte) (s : State) : Result :=
  withReg s a fun ra => .next (s.emit (s.x ra))

end Sys2Proof.Machine
end

