-- ==== Sys2Proof/Machine/Stack.lean ====
section
/-! DEFINITION. PUSH and POP (spec/43_stack.md). -/

namespace Sys2Proof.Machine

/-- PUSH (R85). -/
def execPush (a : Byte) (s : State) : Result :=
  withReg s a fun ra => pushByte s (s.x ra) .next

/-- POP (R86): the register is written, then sp. -/
def execPop (a : Byte) (s : State) : Result :=
  withReg s a fun ra => memRead s s.sp.toNat fun v =>
    .next ((s.setX ra v).setSp (spInc s.cfg.spWrap s.sp))

end Sys2Proof.Machine
end

