-- ==== Sys2Proof/Machine/Fetch.lean ====
section
/-! DEFINITION. The common part of every step: fetch, operand count, pc advance and decode
(spec/40_fetch_decode.md R62 to R67). -/

namespace Sys2Proof.Machine

/-- What the front of a step leaves: the state the step ends in, or an instruction and the state its body sees. -/
inductive Front where
  | ends (s : State)
  | runs (i : Instr) (s : State)
  deriving DecidableEq, Repr

/-- The three fetch addresses (40_fetch_decode.md R62), or the lowest one that fails its check. -/
def fetchAddrs (p : AddrPolicy) (pc : Nat) : Except Nat (Nat × Nat × Nat) :=
  match addrOk p pc, addrOk p (pc + 1), addrOk p (pc + 2) with
  | some a0, some a1, some a2 => .ok (a0, a1, a2)
  | none, _, _ => .error pc
  | some _, none, _ => .error (pc + 1)
  | some _, some _, none => .error (pc + 2)

/-- Latch the opcode and the two candidate operands, then advance pc by `1 + ir[7:6]` (40_fetch_decode.md R62 to
R64). -/
def State.latch (s : State) (ir opA opB : Byte) : State :=
  { s with
    pc0 := s.pc
    ir := ir
    opA := opA
    opB := opB
    pc := advance s.cfg.addrPolicy s.pc (operandField ir) }

/-- The front of a step (40_fetch_decode.md R67): a failing address check writes nothing (R62), an illegal opcode
is raised after the pc advance (R66). -/
def front (s : State) : Front :=
  match fetchAddrs s.cfg.addrPolicy s.pc.toNat with
  | .error a => .ends (s.raise (.addressOutOfRange a s.pc))
  | .ok (a0, a1, a2) =>
    let t := s.latch (s.mem.read a0) (s.mem.read a1) (s.mem.read a2)
    match decode t.cfg.opcodes t.ir t.opA t.opB with
    | .ok i => .runs i t
    | .error (.illegalOpcode ir) => .ends (t.raise (.decodeError ir t.pc0))

end Sys2Proof.Machine
end

