-- ==== Sys2Proof/Machine/Step.lean ====
section
/-! DEFINITION. One step of the machine (spec/40_fetch_decode.md R61, R67), and where a test places an
instruction. -/

namespace Sys2Proof.Machine

/-- One step: defined only in the status Running (00_scope.md R10). -/
def step (s : State) : Host.Outcome State Fault Refusal :=
  match s.status.stopReason with
  | some r => .fault r
  | none =>
    match front s with
    | .ends t => .next t
    | .runs i t => exec i t

/-- `s` with the instruction of a table word stored at `pc`, where `step` fetches (log entry 8). -/
def State.withFetchWord (s : State) (nbits w : Nat) : State := s.placeWord nbits w

end Sys2Proof.Machine
end

