-- ==== Sys2Proof/Machine/Boot.lean ====
section
/-! DEFINITION. What the host does to the machine while it does not run: reset and the image load
(spec/70_reset_and_hazards.md R108, R111 to R113), and the load port's byte counter (R116). None of these is a move
of `step` (R113). -/

namespace Sys2Proof.Machine

/-- Reset, in any status (70_reset_and_hazards.md R108): every field at its reset value under the same configuration.
The status is Running already while reset is held and the image is loaded (log entry 17). -/
def State.applyReset (s : State) : State := State.resetWith s.cfg

/-- Memory after an image that is too long: unspecified (70_reset_and_hazards.md R111), so a free value for each
byte. -/
def overlongMemory (image : List Byte) (before : Memory) : Memory :=
  Memory.ofBytes 0 ((List.range Memory.size).map (Config.overlongByte image before))

/-- `load_image(bytes)` and the release of reset (70_reset_and_hazards.md R110, R111). -/
def State.loadImage (s : State) (image : List Byte) : State :=
  if Memory.size < image.length then
    { s with
      mem := overlongMemory image s.mem
      status := .faulted (.capacityError image.length) }
  else { s with mem := Memory.ofBytes 0 image, status := .running }

/-- The lifecycle up to the run: reset, then load (70_reset_and_hazards.md R112). -/
def State.boot (s : State) (image : List Byte) : State := s.applyReset.loadImage image

/-- The load port (70_reset_and_hazards.md R116): the core held in reset and the nine-bit counter. -/
structure LoadPort where
  core : State
  count : Cursor
  deriving DecidableEq, Repr

/-- The load port when reset is applied: no byte taken, memory reading 0 (70_reset_and_hazards.md R108, R116). -/
def State.openLoad (s : State) : LoadPort := ⟨s.applyReset, 0⟩

/-- The load port takes the next byte: no fault is set and fewer than 256 bytes have been counted. -/
def LoadPort.accepts (p : LoadPort) : Bool :=
  p.core.status.stopReason.isNone && decide (p.count.toNat < Memory.size)

/-- A byte past the 256th: the fault is set with code 1. The model's own choices, where R116 is silent: the recorded
length is 257 (log entry 12), and the fault stays with every further byte, whatever the counter holds, which is a free
value from here on (log entry 15). Memory is unspecified, as after a load that is too long (R111, log entry 12). -/
def LoadPort.overflow (p : LoadPort) (v : Byte) : LoadPort :=
  ⟨{ p.core.raise (.capacityError (Memory.size + 1)) with mem := overlongMemory [v] p.core.mem },
    Config.countPastFault p.count v⟩

/-- One cycle with `load_valid = 1` (70_reset_and_hazards.md R116): the byte goes to the next address, and a 257th byte
sets the fault. -/
def LoadPort.offer (p : LoadPort) (v : Byte) : LoadPort :=
  if p.accepts then ⟨p.core.storeByte p.count.toNat v, p.count + 1⟩ else p.overflow v

end Sys2Proof.Machine
end

