-- ==== Sys2Proof/Machine/HostView.lean ====
section
/-! DEFINITION. What the host reads off the machine: the exit status, the printed lines and the status ports
(spec/60_exceptions.md R94, R103; 42_load_io_halt.md R84; 70_reset_and_hazards.md R116). -/

namespace Sys2Proof.Machine

/-- The fault codes (60_exceptions.md R94). -/
def Fatal.code : Fatal → Nat
  | .capacityError _ => 1
  | .decodeError _ _ => 2
  | .unsupportedAluOp _ _ => 3
  | .addressOutOfRange _ _ => 4
  | .badRegister _ _ => 5

/-- The exit status of a finished run (60_exceptions.md R103); a running machine has none. -/
def Status.exitStatus : Status → Option Nat
  | .running => none
  | .halted => some 0
  | .faulted f => some f.code

/-- The line the host writes for one output event (42_load_io_halt.md R84): unsigned decimal digits, no leading
zeros, no sign, then one line terminator. -/
def hostLine (v : Byte) : List Char := Nat.toDigits 10 v.toNat ++ Config.lineTerminator

/-- Everything the host has written, in the order of the events (42_load_io_halt.md R84). -/
def State.hostText (s : State) : List Char := s.out.flatMap hostLine

/-- The status ports (70_reset_and_hazards.md R116). `faultCode` is valid while `fault` is set; at other times the spec
gives it no value, and here it is a free value (log entry 16). -/
structure StatusPorts where
  halted : Bool
  fault : Bool
  faultCode : BitVec 3
  deriving DecidableEq, Repr

/-- The status ports of a status (70_reset_and_hazards.md R116). -/
def Status.ports : Status → StatusPorts
  | .running => ⟨false, false, Config.idleFaultCode false⟩
  | .halted => ⟨true, false, Config.idleFaultCode true⟩
  | .faulted f => ⟨false, true, BitVec.ofNat 3 f.code⟩

end Sys2Proof.Machine
end

