-- ==== Sys2Proof/Machine/Cycle.lean ====
section
/-! DEFINITION. The reference sequencing of spec/70_reset_and_hazards.md R117 to R121: the machine cycle by cycle,
with a single-ported synchronous RAM. The spec calls it informative and its own choice; no architectural definition
rests on this file (log entry 10). -/

namespace Sys2Proof.Machine

/-- The cycles of a step (70_reset_and_hazards.md R119). W holds what the read byte is for: a register for POP, the
pc for RET. -/
inductive Phase where
  | f0
  | f1
  | f2
  | x
  | w (dest : Option (Fin 8))
  deriving DecidableEq, Repr

/-- The sequencer: the core, the phase and the RAM's read-data register (70_reset_and_hazards.md R118). -/
structure Sequencer where
  core : State
  phase : Phase
  rdata : Byte
  deriving DecidableEq, Repr

/-- A read presented to the RAM, whose data is there in the next cycle (70_reset_and_hazards.md R118). -/
def Sequencer.present (q : Sequencer) (core : State) (phase : Phase) (a : Nat) : Sequencer :=
  { q with core := core, phase := phase, rdata := core.mem.read (a % 256) }

/-- The end of a step: the next cycle is F0, and the RAM's port is idle. The model's own choice (log entry 18): after a
fault or HLT, where 70_reset_and_hazards.md R119 says only that the sequencer stops, it rests in F0 too. -/
def Sequencer.finish (q : Sequencer) (core : State) : Sequencer := { q with core := core, phase := .f0 }

/-- The read of POP and RET in cycle X, after the address check. -/
def Sequencer.readStack (q : Sequencer) (core : State) (dest : Option (Fin 8)) : Sequencer :=
  match addrOk core.cfg.addrPolicy core.sp.toNat with
  | some a => q.present core (.w dest) a
  | none => q.finish (core.raise (.addressOutOfRange core.sp.toNat core.pc0))

/-- Cycle X (70_reset_and_hazards.md R119): the last latch, the decode, the pc advance and every effect but those of
POP and RET, whose read is presented here. -/
def Sequencer.cycleX (q : Sequencer) : Sequencer :=
  let t := q.core.latch q.core.ir q.core.opA q.rdata
  match decode t.cfg.opcodes t.ir t.opA t.opB with
  | .error (.illegalOpcode ir) => q.finish (t.raise (.decodeError ir t.pc0))
  | .ok .ret => q.readStack t none
  | .ok (.pop a) =>
    match regIndex t.cfg.regIndexPolicy a with
    | some ra => q.readStack t (some ra)
    | none => q.finish (t.raise (.badRegister a t.pc0))
  | .ok i =>
    match exec i t with
    | .next u => q.finish u
    | .fault _ => q.finish t
    | .refused _ => q.finish t

/-- Cycle W (70_reset_and_hazards.md R119), for POP and RET only. -/
def Sequencer.cycleW (q : Sequencer) (dest : Option (Fin 8)) : Sequencer :=
  let inc := spInc q.core.cfg.spWrap q.core.sp
  match dest with
  | some ra => q.finish ((q.core.setX ra q.rdata).setSp inc)
  | none =>
    q.finish (if q.core.cfg.callRetMode = .table then (q.core.jump q.rdata).setSp inc else q.core.jump q.rdata)

/-- One clock cycle. The three address checks happen in F0, and the sequencer stops once the core is not Running. -/
def Sequencer.cycle (q : Sequencer) : Sequencer :=
  match q.core.status.stopReason with
  | some _ => q
  | none =>
    match q.phase with
    | .f0 =>
      match fetchAddrs q.core.cfg.addrPolicy q.core.pc.toNat with
      | .error a => q.finish (q.core.raise (.addressOutOfRange a q.core.pc))
      | .ok _ => q.present q.core .f1 q.core.pc.toNat
    | .f1 => q.present { q.core with ir := q.rdata } .f2 (q.core.pc.toNat + 1)
    | .f2 => q.present { q.core with opA := q.rdata } .x (q.core.pc.toNat + 2)
    | .x => q.cycleX
    | .w dest => q.cycleW dest

/-- `k` clock cycles. -/
def Sequencer.cycles : Nat → Sequencer → Sequencer
  | 0, q => q
  | k + 1, q => Sequencer.cycles k q.cycle

/-- The sequencer at the start of a step. -/
def Sequencer.start (s : State) (rdata : Byte) : Sequencer := ⟨s, .f0, rdata⟩

/-- The output port in a cycle (70_reset_and_hazards.md R117): `out_data` in the one cycle in which a PRN completes. -/
def Sequencer.outPort (q : Sequencer) : Option Byte := (q.cycle.core.out.drop q.core.out.length).head?

/-- The reference cycle counts (70_reset_and_hazards.md R120). -/
def cycleCount : Mnemonic → Nat
  | .hlt => 4
  | .ldi => 4
  | .prn => 4
  | .add => 4
  | .mul => 4
  | .cmp => 4
  | .push => 4
  | .pop => 5
  | .call => 4
  | .ret => 5
  | .jmp => 4
  | .jeq => 4
  | .jne => 4

end Sys2Proof.Machine
end

