-- ==== Sys2Proof/WellFormed.lean ====
section
/-! DEFINITION. What a well-formed instruction and a well-formed opcode map are. Both are Bools. An instruction
that is not well formed still decodes and runs: its body raises BadRegister (60_exceptions.md R99). -/

namespace Sys2Proof

/-- An operand byte names a register under a policy (10_state.md R16, 30_encoding.md R49). -/
def RegIndexPolicy.accepts (p : RegIndexPolicy) (a : Byte) : Bool :=
  a.toNat < 8 || p == .mask3

/-- Every register operand names a register: the instruction raises no BadRegister (10_state.md R16). -/
def Instr.wellFormed (p : RegIndexPolicy) (i : Instr) : Bool :=
  i.regOperands.all p.accepts

/-- The two facts every opcode map keeps, and distinctness (30_encoding.md R54): bits 7:6 of each byte are that
instruction's operand count, no byte is 0x00, and the 13 bytes are distinct. -/
def OpcodeMap.wellFormed (m : OpcodeMap) : Bool :=
  (Mnemonic.all.all fun k => operandField (m.byteOf k) == k.format.operandCount)
    && (Mnemonic.all.all fun k => m.byteOf k != 0)
    && decide ((Mnemonic.all.map m.byteOf).Nodup)

end Sys2Proof
end

