-- ==== Sys2Proof/Safety.lean ====
section
/-! DEFINITION. The terms in which claims are made: what an operand byte names, what a step leaves unchanged, what a
safe run is, and the invariant of the machine. They are written from the rules, not from the operations of Machine/,
so that a claim says something about those operations. -/

namespace Sys2Proof.Machine

/-- The operand byte `a` names register `r` (10_state.md R16). -/
def NamesReg (p : RegIndexPolicy) (a : Byte) (r : Fin 8) : Prop :=
  (a.toNat < 8 ∧ r.val = a.toNat) ∨ (8 ≤ a.toNat ∧ p = .mask3 ∧ r.val = a.toNat % 8)

/-- The operand byte `a` names no register, and the instruction raises BadRegister (10_state.md R16). -/
def NamesNone (p : RegIndexPolicy) (a : Byte) : Prop := 8 ≤ a.toNat ∧ p = .fault

/-- An access to address `a` reaches memory byte `k` (20_memory.md R36). -/
def ReachesByte (p : AddrPolicy) (a k : Nat) : Prop :=
  (a ≤ 255 ∧ k = a) ∨ (256 ≤ a ∧ p = .wrap8 ∧ k = a % 256)

/-- An access to address `a` raises AddressOutOfRange (20_memory.md R36). -/
def ReachesNone (p : AddrPolicy) (a : Nat) : Prop := 256 ≤ a ∧ p = .fault

/-- The three bytes the fetch at `pc` reads (40_fetch_decode.md R62). -/
def FetchesBytes (s : State) (ir opA opB : Byte) : Prop :=
  ∃ a0 a1 a2, ReachesByte s.cfg.addrPolicy s.pc.toNat a0
    ∧ ReachesByte s.cfg.addrPolicy (s.pc.toNat + 1) a1
    ∧ ReachesByte s.cfg.addrPolicy (s.pc.toNat + 2) a2
    ∧ s.mem.read a0 = ir ∧ s.mem.read a1 = opA ∧ s.mem.read a2 = opB

/-- The fetch at `pc` reads the instruction `i` (40_fetch_decode.md R65). -/
def Fetches (s : State) (i : Instr) : Prop :=
  ∃ ir opA opB, FetchesBytes s ir opA opB ∧ decode s.cfg.opcodes ir opA opB = .ok i

/-- `pc'` is the advanced pc, `pc0 + 1 + ir[7:6]`, modulo 256 under `wrap8` (40_fetch_decode.md R63, R64). -/
def AdvancedPc (s : State) (ir : Byte) (pc' : Cursor) : Prop :=
  (s.cfg.addrPolicy = .fault → pc'.toNat = s.pc.toNat + 1 + ir.toNat / 64)
    ∧ (s.cfg.addrPolicy = .wrap8 → pc'.toNat = (s.pc.toNat + 1 + ir.toNat / 64) % 256)

/-- The table gives the mnemonic this byte and this format (30_encoding.md R53; the byte is decision D1). -/
def EncodedAs (k : Mnemonic) (b : Byte) (f : Format) : Prop :=
  OpcodeMap.ls8.byteOf k = b ∧ k.format = f

/-- Every register but those named, every byte of memory but those at the named addresses, the latches and the
configuration are unchanged from `s` to `t`. -/
structure SameElsewhere (regs : List (Fin 8)) (cells : List Nat) (s t : State) : Prop where
  regs : ∀ i, i ∉ regs → t.x i = s.x i
  mem : ∀ a, a ∉ cells → t.mem.read a = s.mem.read a
  ir : t.ir = s.ir
  opA : t.opA = s.opA
  opB : t.opB = s.opB
  pc0 : t.pc0 = s.pc0
  cfg : t.cfg = s.cfg

/-- A safe state: no fatal error has ended the run (60_exceptions.md R95, R103). -/
def Safe (s : State) : Prop := ∀ f, s.status ≠ .faulted f

/-- `fl` is one of the values of 10_state.md R21: 0 before any CMP, then exactly one of E, G and L. -/
def LegalFlags (fl : Byte) : Prop := fl = 0b000 ∨ fl = 0b001 ∨ fl = 0b010 ∨ fl = 0b100

/-- The largest pc a step leaves (10_state.md R17, 40_fetch_decode.md R64): the advance past 253 by four under
`fault`, eight bits under `wrap8`. -/
def pcLimit : AddrPolicy → Nat
  | .fault => 257
  | .wrap8 => 255

/-- The invariant of the machine: memory in its canonical form (R29), legal flags (R21), and pc and sp inside the
widths their parameters give them (R17, R19). -/
structure Inv (s : State) : Prop where
  mem : s.mem.wf
  flags : LegalFlags s.fl
  pc : s.pc.toNat ≤ pcLimit s.cfg.addrPolicy
  sp : s.sp.toNat < s.cfg.spWrap.modulus

end Sys2Proof.Machine
end

