-- ==== Sys2Proof/Certificates/Slice0/Obligations.lean ====
section
/-! DEFINITION. The statements about the machine, for the provers. Each docstring cites the rule of spec/ the statement
formalises. Where a rule is one of the spec's own decisions, the docstring names the decision. -/

open Sys2Proof Sys2Proof.Machine

/-! ## Encoding -/

/-- 30_encoding.md R46, R47, R52, R56: decoding the bytes of an instruction gives the instruction back, for every
instruction, every operand byte and every well-formed opcode map, whatever bytes follow it in memory. -/
def Obligations.DecodeOfEncodeIsTheInstruction : Prop :=
  ∀ m : OpcodeMap, m.wellFormed = true →
    ∀ (i : Instr) (ir opA opB : Byte) (after later : List Byte),
      encode m i ++ after = ir :: opA :: opB :: later → decode m ir opA opB = .ok i

/-- 30_encoding.md R46, R47, R57: what the decoder reads is what the encoder writes, no operand byte of the format is
dropped, and the length is `1 + opcode[7:6]`. -/
def Obligations.EncodeOfDecodedIsTheBytes : Prop :=
  ∀ (m : OpcodeMap) (ir opA opB : Byte) (i : Instr), decode m ir opA opB = .ok i →
    encode m i = [ir, opA, opB].take (1 + i.mnemonic.format.operandCount)
      ∧ (m.wellFormed = true → (encode m i).length = 1 + ir.toNat / 64)

/-- 30_encoding.md R52: the decoder is total, the opcode byte alone decides, and there is an instruction exactly when
that byte is the map's byte of one of the 13 mnemonics. -/
def Obligations.DecoderReadsOnlyTheOpcodeByte : Prop :=
  ∀ m : OpcodeMap, m.wellFormed = true →
    (∀ (k : Mnemonic) (opA opB : Byte), ∃ i, decode m (m.byteOf k) opA opB = .ok i ∧ i.mnemonic = k)
      ∧ ∀ ir opA opB : Byte, (∀ k, ir ≠ m.byteOf k) → decode m ir opA opB = .error (.illegalOpcode ir)

/-- 30_encoding.md R53, R55 (the byte values are the spec's decision D1, log entry 4): the words of the 13 rows of the
opcode table decode to their instructions, some illegal bytes are refused, and 243 bytes are illegal. -/
def Obligations.OpcodeTableWordsDecode : Prop :=
  decode OpcodeMap.ls8 0b00000001 0xFF 0x08 = .ok .hlt
    ∧ decode OpcodeMap.ls8 0b10000010 0x00 0x08 = .ok (.ldi 0 8)
    ∧ decode OpcodeMap.ls8 0b01000111 0x05 0x01 = .ok (.prn 5)
    ∧ decode OpcodeMap.ls8 0b10100000 0x01 0x02 = .ok (.add 1 2)
    ∧ decode OpcodeMap.ls8 0b10100010 0x02 0x01 = .ok (.mul 2 1)
    ∧ decode OpcodeMap.ls8 0b10100111 0x07 0x00 = .ok (.cmp 7 0)
    ∧ decode OpcodeMap.ls8 0b01000101 0x06 0x00 = .ok (.push 6)
    ∧ decode OpcodeMap.ls8 0b01000110 0x06 0x00 = .ok (.pop 6)
    ∧ decode OpcodeMap.ls8 0b01010000 0x04 0x00 = .ok (.call 4)
    ∧ decode OpcodeMap.ls8 0b00010001 0x00 0x00 = .ok .ret
    ∧ decode OpcodeMap.ls8 0b01010100 0x03 0x00 = .ok (.jmp 3)
    ∧ decode OpcodeMap.ls8 0b01010101 0x02 0x00 = .ok (.jeq 2)
    ∧ decode OpcodeMap.ls8 0b01010110 0x01 0x00 = .ok (.jne 1)
    ∧ decode OpcodeMap.ls8 0x00 0x00 0x00 = .error (.illegalOpcode 0x00)
    ∧ decode OpcodeMap.ls8 0xA1 0x00 0x01 = .error (.illegalOpcode 0xA1)
    ∧ decode OpcodeMap.ls8 0xC0 0x00 0x00 = .error (.illegalOpcode 0xC0)
    ∧ ((List.range 256).filter fun n => (OpcodeMap.ls8.mnemonicOf (BitVec.ofNat 8 n)).isNone).length = 243

/-- 30_encoding.md R51, R54, R55: under every well-formed opcode map, every byte whose operand-count field is 3, and
the byte 0, is illegal. -/
def Obligations.CountThreeAndZeroAreIllegal : Prop :=
  ∀ m : OpcodeMap, m.wellFormed = true → ∀ ir opA opB : Byte, (3 ≤ ir.toNat / 64 ∨ ir = 0) →
    decode m ir opA opB = .error (.illegalOpcode ir)

/-! ## The step -/

/-- 40_fetch_decode.md R65: where the bytes at pc decode to an instruction, the step is the body of that instruction
on the state with ir, opA and opB latched and pc advanced; the model's own latch pc0 holds the old pc (log entry 2).
-/
def Obligations.StepRunsTheDecodedInstruction : Prop :=
  ∀ (s : State) (ir opA opB : Byte) (i : Instr), s.status = .running → FetchesBytes s ir opA opB →
    decode s.cfg.opcodes ir opA opB = .ok i →
      ∃ pc', AdvancedPc s ir pc'
        ∧ step s = exec i { s with pc0 := s.pc, ir := ir, opA := opA, opB := opB, pc := pc' }

/-- 40_fetch_decode.md R66, 60_exceptions.md R97 (the state left is the spec's decision D30): an illegal opcode byte
ends the run with DecodeError after the latches, the model's own pc0 among them (log entry 2), and the pc advance, and
nothing else is written. -/
def Obligations.IllegalOpcodeEndsTheRun : Prop :=
  ∀ (s : State) (ir opA opB : Byte), s.status = .running → FetchesBytes s ir opA opB →
    (∀ k, ir ≠ s.cfg.opcodes.byteOf k) →
      ∃ pc', AdvancedPc s ir pc'
        ∧ step s = .next { s with
            pc0 := s.pc, ir := ir, opA := opA, opB := opB, pc := pc'
            status := .faulted (.decodeError ir s.pc) }

/-- 40_fetch_decode.md R62, 20_memory.md R38, 60_exceptions.md R100, 70_reset_and_hazards.md R115 (the spec's
decisions D4 and D27): under ADDR_POLICY = fault a fetch at 254 or above raises AddressOutOfRange with the lowest
failing address and writes nothing; every other fetch reads three bytes. -/
def Obligations.FetchAtTheTopFaultsAndWritesNothing : Prop :=
  ∀ s : State, s.status = .running →
    (s.cfg.addrPolicy = .fault → 254 ≤ s.pc.toNat →
        step s = .next { s with
          status := .faulted (.addressOutOfRange (if 256 ≤ s.pc.toNat then s.pc.toNat else 256) s.pc) })
      ∧ (s.cfg.addrPolicy = .wrap8 ∨ s.pc.toNat < 254 → ∃ ir opA opB, FetchesBytes s ir opA opB)

/-- 00_scope.md R10, 40_fetch_decode.md R61 (the spec's decision D19): a Running state always has a next state, and a
Halted or Faulted state has none. -/
def Obligations.StepExactlyWhileRunning : Prop :=
  ∀ s : State,
    (s.status = .running → ∃ t, step s = .next t)
      ∧ (s.status = .halted → step s = .fault .halted)
      ∧ ∀ f, s.status = .faulted f → step s = .fault (.faulted f)

/-- 40_fetch_decode.md R70: the outcome of a step is a function of pc, mem, x, sp, fl and the parameters. Two running
states that agree on these, and differ in the latches and in the output so far, step to states that agree on these and
on the status, with the same new output; the latches agree wherever the fetch succeeds. -/
def Obligations.StepIgnoresTheOldLatches : Prop :=
  ∀ s s' : State, s.status = .running → s'.status = .running → s'.pc = s.pc → s'.mem = s.mem → s'.regs = s.regs →
    s'.sp = s.sp → s'.fl = s.fl → s'.cfg = s.cfg →
      ∃ t t' new, step s = .next t ∧ step s' = .next t' ∧ t'.pc = t.pc ∧ t'.mem = t.mem ∧ t'.regs = t.regs
        ∧ t'.sp = t.sp ∧ t'.fl = t.fl ∧ t'.cfg = t.cfg ∧ t'.status = t.status
        ∧ t.out = s.out ++ new ∧ t'.out = s'.out ++ new
        ∧ ((∃ ir opA opB, FetchesBytes s ir opA opB) → t'.ir = t.ir ∧ t'.opA = t.opA ∧ t'.opB = t.opB)

/-! ## The ALU instructions -/

/-- 41_alu.md R75: ADD, its result modulo 256, its frame, its encoding (the byte is the default map's, the spec's
decision D1), and BadRegister (decision D3) for operand a and then operand b, before any write of the body. -/
def Obligations.AddSumsModulo256 : Prop :=
  EncodedAs .add 0xA0 .f2rr ∧ ∀ (s : State) (a b : Byte),
    (∀ ra rb, NamesReg s.cfg.regIndexPolicy a ra → NamesReg s.cfg.regIndexPolicy b rb →
      ∃ t, exec (.add a b) s = .next t ∧ (t.x ra).toNat = ((s.x ra).toNat + (s.x rb).toNat) % 256
        ∧ SameElsewhere [ra] [] s t
        ∧ t.pc = s.pc ∧ t.sp = s.sp ∧ t.fl = s.fl ∧ t.status = s.status ∧ t.out = s.out)
      ∧ (NamesNone s.cfg.regIndexPolicy a →
        exec (.add a b) s = .next { s with status := .faulted (.badRegister a s.pc0) })
      ∧ (∀ ra, NamesReg s.cfg.regIndexPolicy a ra → NamesNone s.cfg.regIndexPolicy b →
        exec (.add a b) s = .next { s with status := .faulted (.badRegister b s.pc0) })

/-- 41_alu.md R76: MUL, the low eight bits of the unsigned product (the spec's decision D9), its frame, its encoding
(decision D1), and BadRegister (decision D3) as for ADD. -/
def Obligations.MulKeepsTheLowByte : Prop :=
  EncodedAs .mul 0xA2 .f2rr ∧ ∀ (s : State) (a b : Byte),
    (∀ ra rb, NamesReg s.cfg.regIndexPolicy a ra → NamesReg s.cfg.regIndexPolicy b rb →
      ∃ t, exec (.mul a b) s = .next t ∧ (t.x ra).toNat = ((s.x ra).toNat * (s.x rb).toNat) % 256
        ∧ SameElsewhere [ra] [] s t
        ∧ t.pc = s.pc ∧ t.sp = s.sp ∧ t.fl = s.fl ∧ t.status = s.status ∧ t.out = s.out)
      ∧ (NamesNone s.cfg.regIndexPolicy a →
        exec (.mul a b) s = .next { s with status := .faulted (.badRegister a s.pc0) })
      ∧ (∀ ra, NamesReg s.cfg.regIndexPolicy a ra → NamesNone s.cfg.regIndexPolicy b →
        exec (.mul a b) s = .next { s with status := .faulted (.badRegister b s.pc0) })

/-- 41_alu.md R77: CMP, unsigned (the spec's decision D8): exactly one of E, G and L is set and every other bit of fl
is cleared; no register changes; its encoding (decision D1), and BadRegister (decision D3) as for ADD. -/
def Obligations.CmpSetsExactlyOneFlag : Prop :=
  EncodedAs .cmp 0xA7 .f2rr ∧ ∀ (s : State) (a b : Byte),
    (∀ ra rb, NamesReg s.cfg.regIndexPolicy a ra → NamesReg s.cfg.regIndexPolicy b rb →
      ∃ t, exec (.cmp a b) s = .next t
        ∧ ((s.x ra).toNat = (s.x rb).toNat → t.fl = 0b00000001)
        ∧ ((s.x rb).toNat < (s.x ra).toNat → t.fl = 0b00000010)
        ∧ ((s.x ra).toNat < (s.x rb).toNat → t.fl = 0b00000100)
        ∧ SameElsewhere [] [] s t
        ∧ t.pc = s.pc ∧ t.sp = s.sp ∧ t.status = s.status ∧ t.out = s.out)
      ∧ (NamesNone s.cfg.regIndexPolicy a →
        exec (.cmp a b) s = .next { s with status := .faulted (.badRegister a s.pc0) })
      ∧ (∀ ra, NamesReg s.cfg.regIndexPolicy a ra → NamesNone s.cfg.regIndexPolicy b →
        exec (.cmp a b) s = .next { s with status := .faulted (.badRegister b s.pc0) })

/-- 41_alu.md R74, 60_exceptions.md R98 (the selector codes are the spec's decision D29): the ALU itself. Selector
0b11 raises UnsupportedAluOp and writes nothing else; the other three do not raise. -/
def Obligations.AluRaisesOnlyOnSelectorThree : Prop :=
  ∀ (s : State) (sel : BitVec 2) (ra rb : Fin 8),
    (sel = 0b11 → alu s sel ra rb = .next { s with status := .faulted (.unsupportedAluOp sel s.pc0) })
      ∧ (sel ≠ 0b11 → ∃ t, alu s sel ra rb = .next t ∧ t.status = s.status)

/-- 60_exceptions.md R96, R98: no step raises UnsupportedAluOp or CapacityError. -/
def Obligations.NoStepRaisesAluOrCapacityError : Prop :=
  ∀ s t : State, step s = .next t →
    (∀ sel pc0, t.status ≠ .faulted (.unsupportedAluOp sel pc0))
      ∧ ∀ len, t.status ≠ .faulted (.capacityError len)

/-! ## Halt, load-immediate and print -/

/-- 42_load_io_halt.md R81: HLT ends the run in the status Halted and changes nothing else of what its body sees; pc
is left at `pc0 + 1`, and no step follows (the spec's decision D34). Its encoding (decision D1). -/
def Obligations.HltEndsTheRun : Prop :=
  EncodedAs .hlt 0x01 .f0
    ∧ (∀ s : State, exec .hlt s = .next { s with status := .halted })
    ∧ ∀ s : State, s.status = .running → s.cfg.opcodes.wellFormed = true → Fetches s .hlt →
      ∃ t, step s = .next t ∧ t.status = .halted ∧ step t = .fault .halted
        ∧ (s.cfg.addrPolicy = .fault → t.pc.toNat = s.pc.toNat + 1)
        ∧ (s.cfg.addrPolicy = .wrap8 → t.pc.toNat = (s.pc.toNat + 1) % 256)

/-- 42_load_io_halt.md R82: LDI writes its operand byte b to the register, unchanged, and nothing else (for R7 too: sp
does not move); its encoding (decision D1), and BadRegister (decision D3). -/
def Obligations.LdiLoadsTheImmediate : Prop :=
  EncodedAs .ldi 0x82 .f2ri ∧ ∀ (s : State) (a imm : Byte),
    (∀ ra, NamesReg s.cfg.regIndexPolicy a ra →
      ∃ t, exec (.ldi a imm) s = .next t ∧ t.x ra = imm ∧ SameElsewhere [ra] [] s t
        ∧ t.pc = s.pc ∧ t.sp = s.sp ∧ t.fl = s.fl ∧ t.status = s.status ∧ t.out = s.out)
      ∧ (NamesNone s.cfg.regIndexPolicy a →
        exec (.ldi a imm) s = .next { s with status := .faulted (.badRegister a s.pc0) })

/-- 42_load_io_halt.md R83: PRN appends the register's byte to the output (the spec's decision D16) and changes
nothing else; its encoding (decision D1), and BadRegister (decision D3). -/
def Obligations.PrnAppendsTheRegister : Prop :=
  EncodedAs .prn 0x47 .f1r ∧ ∀ (s : State) (a : Byte),
    (∀ ra, NamesReg s.cfg.regIndexPolicy a ra →
      ∃ t, exec (.prn a) s = .next t ∧ t.out = s.out ++ [s.x ra] ∧ SameElsewhere [] [] s t
        ∧ t.pc = s.pc ∧ t.sp = s.sp ∧ t.fl = s.fl ∧ t.status = s.status)
      ∧ (NamesNone s.cfg.regIndexPolicy a →
        exec (.prn a) s = .next { s with status := .faulted (.badRegister a s.pc0) })

/-! ## The stack -/

/-- 43_stack.md R85: PUSH decrements sp modulo SP_WRAP (the spec's decisions D5 and D33) and writes the register at
the new sp, and no other byte; its encoding (decision D1); BadRegister (decision D3) before sp changes;
AddressOutOfRange(256), with sp already written, only under SP_WRAP = 257 with ADDR_POLICY = fault. -/
def Obligations.PushStoresBelowTheStackPointer : Prop :=
  EncodedAs .push 0x45 .f1r ∧ ∀ (s : State) (a : Byte),
    (∀ ra k, NamesReg s.cfg.regIndexPolicy a ra → s.mem.wf →
      addrOk s.cfg.addrPolicy (spDec s.cfg.spWrap s.sp).toNat = some k →
      ∃ t, exec (.push a) s = .next t ∧ t.mem.read k = s.x ra
        ∧ t.sp.toNat = (s.sp.toNat + s.cfg.spWrap.modulus - 1) % s.cfg.spWrap.modulus
        ∧ SameElsewhere [] [k] s t
        ∧ t.pc = s.pc ∧ t.fl = s.fl ∧ t.status = s.status ∧ t.out = s.out)
      ∧ (NamesNone s.cfg.regIndexPolicy a →
        exec (.push a) s = .next { s with status := .faulted (.badRegister a s.pc0) })
      ∧ (∀ ra, NamesReg s.cfg.regIndexPolicy a ra →
        addrOk s.cfg.addrPolicy (spDec s.cfg.spWrap s.sp).toNat = none →
        s.cfg.spWrap = .at257 ∧ s.cfg.addrPolicy = .fault
          ∧ exec (.push a) s = .next { s with
              sp := 256
              status := .faulted (.addressOutOfRange 256 s.pc0) })

/-- 43_stack.md R86: POP reads the byte at sp into the register, then increments sp modulo SP_WRAP (the spec's
decision D5); memory is unchanged; its encoding (decision D1); BadRegister (decision D3) and AddressOutOfRange before
any write (the latter, for an sp inside its width, only under SP_WRAP = 257 with ADDR_POLICY = fault, at 256). -/
def Obligations.PopLoadsAtTheStackPointer : Prop :=
  EncodedAs .pop 0x46 .f1r ∧ ∀ (s : State) (a : Byte),
    (∀ ra k, NamesReg s.cfg.regIndexPolicy a ra → addrOk s.cfg.addrPolicy s.sp.toNat = some k →
      ∃ t, exec (.pop a) s = .next t ∧ t.x ra = s.mem.read k
        ∧ t.sp.toNat = (s.sp.toNat + 1) % s.cfg.spWrap.modulus
        ∧ SameElsewhere [ra] [] s t
        ∧ t.pc = s.pc ∧ t.fl = s.fl ∧ t.status = s.status ∧ t.out = s.out)
      ∧ (NamesNone s.cfg.regIndexPolicy a →
        exec (.pop a) s = .next { s with status := .faulted (.badRegister a s.pc0) })
      ∧ (∀ ra, NamesReg s.cfg.regIndexPolicy a ra → addrOk s.cfg.addrPolicy s.sp.toNat = none →
        exec (.pop a) s = .next { s with status := .faulted (.addressOutOfRange s.sp.toNat s.pc0) }
          ∧ (s.sp.toNat < s.cfg.spWrap.modulus →
            s.sp.toNat = 256 ∧ s.cfg.spWrap = .at257 ∧ s.cfg.addrPolicy = .fault))

/-- 43_stack.md, the stack balance law under R86: with SP_WRAP = 256, PUSH(a) then POP(b) leaves register b with the
value register a had, sp as it was, and every other register. -/
def Obligations.PushThenPopBalances : Prop :=
  ∀ (s : State) (a b : Byte) (ra rb : Fin 8), s.cfg.spWrap = .at256 → s.sp.toNat < 256 → s.mem.wf →
    NamesReg s.cfg.regIndexPolicy a ra → NamesReg s.cfg.regIndexPolicy b rb →
      ∃ t u, exec (.push a) s = .next t ∧ exec (.pop b) t = .next u ∧ u.x rb = s.x ra ∧ u.sp = s.sp
        ∧ ∀ i, i ≠ rb → u.x i = s.x i

/-! ## Control transfer -/

/-- 44_control.md R87 (CALL_RET_MODE is the spec's decision D6): CALL pushes the byte of the pc its body sees and, in
table mode only, transfers control to the register's value; its encoding (decision D1); BadRegister (decision D3)
before any write; AddressOutOfRange at the push as for PUSH. -/
def Obligations.CallPushesAndTransfers : Prop :=
  EncodedAs .call 0x50 .f1r ∧ ∀ (s : State) (a : Byte),
    (∀ ra k, NamesReg s.cfg.regIndexPolicy a ra → s.mem.wf →
      addrOk s.cfg.addrPolicy (spDec s.cfg.spWrap s.sp).toNat = some k →
      ∃ t, exec (.call a) s = .next t ∧ (t.mem.read k).toNat = s.pc.toNat % 256
        ∧ t.sp.toNat = (s.sp.toNat + s.cfg.spWrap.modulus - 1) % s.cfg.spWrap.modulus
        ∧ (s.cfg.callRetMode = .table → t.pc.toNat = (s.x ra).toNat)
        ∧ (s.cfg.callRetMode = .observed → t.pc = s.pc)
        ∧ SameElsewhere [] [k] s t ∧ t.fl = s.fl ∧ t.status = s.status ∧ t.out = s.out)
      ∧ (NamesNone s.cfg.regIndexPolicy a →
        exec (.call a) s = .next { s with status := .faulted (.badRegister a s.pc0) })
      ∧ (∀ ra, NamesReg s.cfg.regIndexPolicy a ra →
        addrOk s.cfg.addrPolicy (spDec s.cfg.spWrap s.sp).toNat = none →
        s.cfg.spWrap = .at257 ∧ s.cfg.addrPolicy = .fault
          ∧ exec (.call a) s = .next { s with
              sp := 256
              status := .faulted (.addressOutOfRange 256 s.pc0) })

/-- 44_control.md R87 (the return address is the spec's decision D7): a step that runs CALL pushes `pc0 + 2`, which
fits in a byte. -/
def Obligations.CallPushesTheAddressAfterIt : Prop :=
  ∀ (s : State) (a : Byte) (ra : Fin 8) (k : Nat), s.status = .running → s.cfg.opcodes.wellFormed = true →
    s.mem.wf → Fetches s (.call a) → NamesReg s.cfg.regIndexPolicy a ra →
    addrOk s.cfg.addrPolicy (spDec s.cfg.spWrap s.sp).toNat = some k →
      ∃ t, step s = .next t ∧ (t.mem.read k).toNat = (s.pc.toNat + 2) % 256
        ∧ (s.cfg.addrPolicy = .fault → (t.mem.read k).toNat = s.pc.toNat + 2)

/-- 44_control.md R88 (CALL_RET_MODE is the spec's decision D6): RET loads pc from the byte at sp and, in table mode
only, increments sp modulo SP_WRAP; its encoding (decision D1); AddressOutOfRange before any write. -/
def Obligations.RetLoadsThePc : Prop :=
  EncodedAs .ret 0x11 .f0 ∧ ∀ s : State,
    (∀ k, addrOk s.cfg.addrPolicy s.sp.toNat = some k →
      ∃ t, exec .ret s = .next t ∧ t.pc.toNat = (s.mem.read k).toNat
        ∧ (s.cfg.callRetMode = .table → t.sp.toNat = (s.sp.toNat + 1) % s.cfg.spWrap.modulus)
        ∧ (s.cfg.callRetMode = .observed → t.sp = s.sp)
        ∧ SameElsewhere [] [] s t ∧ t.fl = s.fl ∧ t.status = s.status ∧ t.out = s.out)
      ∧ (addrOk s.cfg.addrPolicy s.sp.toNat = none →
        exec .ret s = .next { s with status := .faulted (.addressOutOfRange s.sp.toNat s.pc0) }
          ∧ (s.sp.toNat < s.cfg.spWrap.modulus →
            s.sp.toNat = 256 ∧ s.cfg.spWrap = .at257 ∧ s.cfg.addrPolicy = .fault))

/-- 44_control.md R89: JMP loads pc from the register; its encoding (the byte is the default map's, the spec's
decision D1), and BadRegister (decision D3). -/
def Obligations.JmpLoadsThePc : Prop :=
  EncodedAs .jmp 0x54 .f1r ∧ ∀ (s : State) (a : Byte),
    (∀ ra, NamesReg s.cfg.regIndexPolicy a ra →
      ∃ t, exec (.jmp a) s = .next t ∧ t.pc.toNat = (s.x ra).toNat ∧ SameElsewhere [] [] s t
        ∧ t.sp = s.sp ∧ t.fl = s.fl ∧ t.status = s.status ∧ t.out = s.out)
      ∧ (NamesNone s.cfg.regIndexPolicy a →
        exec (.jmp a) s = .next { s with status := .faulted (.badRegister a s.pc0) })

/-- 44_control.md R90: JEQ loads pc from the register exactly when bit 0 of fl is 1; the register operand is checked
whether or not the branch is taken (the spec's decision D28); its encoding (decision D1). -/
def Obligations.JeqBranchesOnEqual : Prop :=
  EncodedAs .jeq 0x55 .f1r ∧ ∀ (s : State) (a : Byte),
    (∀ ra, NamesReg s.cfg.regIndexPolicy a ra →
      ∃ t, exec (.jeq a) s = .next t
        ∧ (s.fl.toNat % 2 = 1 → t.pc.toNat = (s.x ra).toNat)
        ∧ (s.fl.toNat % 2 = 0 → t.pc = s.pc)
        ∧ SameElsewhere [] [] s t
        ∧ t.sp = s.sp ∧ t.fl = s.fl ∧ t.status = s.status ∧ t.out = s.out)
      ∧ (NamesNone s.cfg.regIndexPolicy a →
        exec (.jeq a) s = .next { s with status := .faulted (.badRegister a s.pc0) })

/-- 44_control.md R91: JNE loads pc from the register exactly when bit 0 of fl is 0; the register operand is checked
whether or not the branch is taken (the spec's decision D28); its encoding (decision D1). -/
def Obligations.JneBranchesOnNotEqual : Prop :=
  EncodedAs .jne 0x56 .f1r ∧ ∀ (s : State) (a : Byte),
    (∀ ra, NamesReg s.cfg.regIndexPolicy a ra →
      ∃ t, exec (.jne a) s = .next t
        ∧ (s.fl.toNat % 2 = 0 → t.pc.toNat = (s.x ra).toNat)
        ∧ (s.fl.toNat % 2 = 1 → t.pc = s.pc)
        ∧ SameElsewhere [] [] s t
        ∧ t.sp = s.sp ∧ t.fl = s.fl ∧ t.status = s.status ∧ t.out = s.out)
      ∧ (NamesNone s.cfg.regIndexPolicy a →
        exec (.jne a) s = .next { s with status := .faulted (.badRegister a s.pc0) })

/-- 44_control.md R87, R88: in table mode with SP_WRAP = 256, a CALL whose body sees a pc of eight bits, followed by a
RET, comes back to that pc with sp and every register as they were. -/
def Obligations.RetUndoesCall : Prop :=
  ∀ (s : State) (a : Byte) (ra : Fin 8), s.cfg.callRetMode = .table → s.cfg.spWrap = .at256 → s.sp.toNat < 256 →
    s.pc.toNat < 256 → s.mem.wf → NamesReg s.cfg.regIndexPolicy a ra →
      ∃ t u, exec (.call a) s = .next t ∧ t.pc.toNat = (s.x ra).toNat ∧ exec .ret t = .next u ∧ u.pc = s.pc
        ∧ u.sp = s.sp ∧ ∀ i, u.x i = s.x i

/-! ## Rules about the whole machine -/

/-- 10_state.md R22: a step that changes fl runs CMP, and only JEQ and JNE read fl: with another value in fl, the
body of any other instruction does everything else the same, and it leaves fl alone or writes the same value to it. -/
def Obligations.OnlyCmpWritesAndOnlyBranchesReadFlags : Prop :=
  (∀ s t : State, step s = .next t → t.fl ≠ s.fl → ∃ a b, Fetches s (.cmp a b))
    ∧ ∀ (i : Instr) (s t : State) (v : Byte), i.mnemonic ≠ .jeq → i.mnemonic ≠ .jne → exec i s = .next t →
      ∃ t', exec i { s with fl := v } = .next t' ∧ { t' with fl := t.fl } = t
        ∧ ((t.fl = s.fl ∧ t'.fl = v) ∨ t'.fl = t.fl)

/-- 10_state.md R19: a step that changes sp runs PUSH, POP, CALL or RET. -/
def Obligations.OnlyStackInstructionsMoveSp : Prop :=
  ∀ s t : State, step s = .next t → t.sp ≠ s.sp →
    Fetches s .ret ∨ ∃ a, Fetches s (.push a) ∨ Fetches s (.pop a) ∨ Fetches s (.call a)

/-- 20_memory.md R33, R44 (the spec's decision D15): a step that changes a byte of memory runs PUSH or CALL, and the
byte is the one at the decremented sp. -/
def Obligations.OnlyPushAndCallStore : Prop :=
  ∀ (s t : State) (k : Nat), step s = .next t → t.mem.read k ≠ s.mem.read k →
    (∃ a, Fetches s (.push a) ∨ Fetches s (.call a))
      ∧ addrOk s.cfg.addrPolicy (spDec s.cfg.spWrap s.sp).toNat = some k

/-- 10_state.md R14: register 7 plays no part in the stack. Where no register operand names it, PUSH, POP, CALL and
RET neither read nor write x[7]: with another value in x[7], the body does everything the same and leaves that value.
-/
def Obligations.StackInstructionsIgnoreRegisterSeven : Prop :=
  ∀ (i : Instr) (s t : State) (v : Byte),
    (i.mnemonic = .push ∨ i.mnemonic = .pop ∨ i.mnemonic = .call ∨ i.mnemonic = .ret) →
    (∀ a ∈ i.regOperands, ¬ NamesReg s.cfg.regIndexPolicy a 7) → exec i s = .next t →
      t.x 7 = s.x 7 ∧ exec i (s.setX 7 v) = .next (t.setX 7 v)

/-- 10_state.md R28, 42_load_io_halt.md R84 (the spec's decision D16): only PRN writes the output, and it appends its
register's byte. -/
def Obligations.OnlyPrnWritesTheOutput : Prop :=
  ∀ s t : State, step s = .next t →
    t.out = s.out
      ∨ ∃ a r, Fetches s (.prn a) ∧ NamesReg s.cfg.regIndexPolicy a r ∧ t.out = s.out ++ [s.x r]

/-- 00_scope.md R6 and log entry 1 (the model's own way to hold the parameters): no step changes a parameter. -/
def Obligations.NoStepChangesTheParameters : Prop :=
  ∀ s t : State, step s = .next t → t.cfg = s.cfg

/-- 60_exceptions.md R102: the state each fault leaves, which is the spec's decisions D19 (earlier writes of the step
stay), D27 (the order of faults), D30 (the state after a DecodeError) and D4 (the address faults). No register, flag,
memory byte or output is written; a fetch fault changes the status only; every other fault leaves the latches, the
model's own pc0 among them (log entry 2), and the advanced pc, and sp is unchanged but for the stack fault of PUSH and
CALL, which leaves 256. -/
def Obligations.FaultsArePrecise : Prop :=
  ∀ (s t : State) (f : Fatal), step s = .next t → t.status = .faulted f →
    t.regs = s.regs ∧ t.fl = s.fl ∧ t.mem = s.mem ∧ t.out = s.out ∧ t.cfg = s.cfg
      ∧ (∀ ir opA opB, FetchesBytes s ir opA opB →
        t.ir = ir ∧ t.opA = opA ∧ t.opB = opB ∧ t.pc0 = s.pc ∧ AdvancedPc s ir t.pc
          ∧ (t.sp = s.sp ∨ (f = .addressOutOfRange 256 s.pc ∧ t.sp = 256)))
      ∧ ((¬ ∃ ir opA opB, FetchesBytes s ir opA opB) → t = { s with status := .faulted f })

/-- 60_exceptions.md R107, 42_load_io_halt.md R81 (the spec's decisions D24 and D34): only HLT halts the machine. -/
def Obligations.OnlyHltHalts : Prop :=
  ∀ s t : State, step s = .next t → t.status = .halted → Fetches s .hlt

/-- 40_fetch_decode.md R71 (the spec's decision D32): a step leaves a pc of 256 or more only by the sequential advance
under ADDR_POLICY = fault; otherwise the pc was there already and the fetch fault left it. -/
def Obligations.OnlyTheAdvanceSetsThePcCarry : Prop :=
  ∀ s t : State, step s = .next t → 256 ≤ t.pc.toNat →
    s.cfg.addrPolicy = .fault
      ∧ (t.pc = s.pc ∨ ∃ ir opA opB, FetchesBytes s ir opA opB ∧ t.pc.toNat = s.pc.toNat + 1 + ir.toNat / 64)

/-! ## The invariant -/

/-- 10_state.md R17, R19, R21, R29 (the widths and the flags are the spec's decisions D4, D5, D10 and D32; the
canonical form is the model's): every step from a state that meets the invariant leaves a state that meets it. -/
def Obligations.StepKeepsTheInvariant : Prop :=
  ∀ s t : State, Inv s → step s = .next t → Inv t

/-- 10_state.md R30, 70_reset_and_hazards.md R111 (the spec's decisions D21 and D22): the reset state meets the
invariant, and so does the machine after reset and any image load. -/
def Obligations.ResetMeetsTheInvariant : Prop :=
  Inv State.reset ∧ ∀ (s : State) (image : List Byte), Inv (s.boot image)

/-! ## Reset and load -/

/-- 10_state.md R30, 70_reset_and_hazards.md R108 to R111: what reset, in any status, and the load of an image of at
most 256 bytes leave; the model's reset state is that of the empty image. -/
def Obligations.BootLeavesTheResetValues : Prop :=
  State.reset = State.reset.boot [] ∧
  ∀ (s : State) (image : List Byte), image.length ≤ 256 →
    (∀ i, (s.boot image).x i = if i = 7 then 255 else 0)
      ∧ (s.boot image).pc = 0 ∧ (s.boot image).sp = 255 ∧ (s.boot image).fl = 0 ∧ (s.boot image).ir = 0
      ∧ (s.boot image).opA = 0 ∧ (s.boot image).opB = 0 ∧ (s.boot image).out = []
      ∧ (s.boot image).status = .running ∧ (s.boot image).cfg = s.cfg
      ∧ ∀ a, (s.boot image).mem.read a = image.getD a 0

/-- 60_exceptions.md R96, 70_reset_and_hazards.md R110, R111: an image of more than 256 bytes ends in CapacityError
before any step; nothing is output, and the exit status is 1. -/
def Obligations.OverlongImageNeverRuns : Prop :=
  ∀ (s : State) (image : List Byte), 256 < image.length →
    (s.boot image).status = .faulted (.capacityError image.length)
      ∧ step (s.boot image) = .fault (.faulted (.capacityError image.length))
      ∧ (s.boot image).out = [] ∧ (s.boot image).status.exitStatus = some 1

/-- 70_reset_and_hazards.md R116 (the load port is the spec's decision D17), 60_exceptions.md R95: offering the bytes
of an image one by one at the load port gives what the image load gives; with more than 256 bytes the ports show fault
code 1. Two clauses rest on the model's choices: for 258 bytes or more, that the fault stays (log entry 15, which R95
supports); and the status Running of the core while reset is held, which the equality with boot needs (log entry 17).
-/
def Obligations.LoadPortLoadsTheImage : Prop :=
  ∀ (s : State) (image : List Byte),
    (image.length ≤ 256 → (image.foldl LoadPort.offer s.openLoad).core = s.boot image)
      ∧ (256 < image.length →
        (image.foldl LoadPort.offer s.openLoad).core.status.ports = ⟨false, true, 1⟩
          ∧ (s.boot image).status.ports = ⟨false, true, 1⟩)

/-! ## Shared operations -/

/-- 10_state.md R20 (SP_WRAP is the spec's decision D5): the stack-pointer arithmetic, with its corner values. -/
def Obligations.StackPointerArithmetic : Prop :=
  (∀ (w : SpWrap) (sp : Cursor),
    (spDec w sp).toNat = (sp.toNat + w.modulus - 1) % w.modulus
      ∧ (spInc w sp).toNat = (sp.toNat + 1) % w.modulus)
    ∧ spDec .at256 0 = 255 ∧ spInc .at256 255 = 0 ∧ spDec .at257 0 = 256 ∧ spInc .at257 255 = 256

/-- 20_memory.md R36 (the spec's decision D4): the address check. -/
def Obligations.AddressCheck : Prop :=
  ∀ (p : AddrPolicy) (a : Nat),
    (∀ k, addrOk p a = some k ↔ ReachesByte p a k) ∧ (addrOk p a = none ↔ ReachesNone p a)

/-- 10_state.md R16 (the spec's decision D3): the register-index function. -/
def Obligations.RegisterIndex : Prop :=
  ∀ (p : RegIndexPolicy) (a : Byte),
    (∀ r, regIndex p a = some r ↔ NamesReg p a r) ∧ (regIndex p a = none ↔ NamesNone p a)

/-! ## What the host sees -/

/-- 60_exceptions.md R94, R103, 70_reset_and_hazards.md R116 (the numbers are the spec's decision D20): each fatal
error has its number; a halted run exits with 0, a faulted run with its number, 1 to 5, a running machine has no exit
status, and the ports say the same. -/
def Obligations.ExitStatusTellsTheEnd : Prop :=
  (∀ len, (Fatal.capacityError len).code = 1)
  ∧ (∀ ir pc0, (Fatal.decodeError ir pc0).code = 2)
  ∧ (∀ sel pc0, (Fatal.unsupportedAluOp sel pc0).code = 3)
  ∧ (∀ addr pc0, (Fatal.addressOutOfRange addr pc0).code = 4)
  ∧ (∀ index pc0, (Fatal.badRegister index pc0).code = 5)
  ∧ ∀ s : State,
    (s.status.exitStatus = some 0 ↔ s.status = .halted)
      ∧ (s.status.exitStatus = none ↔ s.status = .running)
      ∧ (∀ f, s.status = .faulted f → s.status.exitStatus = some f.code ∧ 1 ≤ f.code ∧ f.code ≤ 5)
      ∧ (s.status.ports.halted = true ↔ s.status = .halted)
      ∧ (s.status.ports.fault = true ↔ ∃ f, s.status = .faulted f)
      ∧ ∀ f, s.status = .faulted f → s.status.ports.faultCode.toNat = f.code

/-- 42_load_io_halt.md R84 (the spec's decision D16): the line the host writes for a byte is its unsigned decimal
digits, which spell its value, with no leading zero and no sign, then the terminator. -/
def Obligations.HostLineIsDecimal : Prop :=
  ∀ v : Byte, ∃ digits : List Char, hostLine v = digits ++ Config.lineTerminator ∧ digits ≠ []
    ∧ (∀ c ∈ digits, c.isDigit = true)
    ∧ (digits.head? = some '0' → digits = ['0'])
    ∧ digits.foldl (fun n c => 10 * n + (c.toNat - 48)) 0 = v.toNat

/-! ## The reference sequencing -/

/-- 70_reset_and_hazards.md R118 to R120 (informative, the spec's decision D18): from the start of a step, the
sequencer is in F0 again after 1 to 5 cycles, not before, and its core is then what the step gives; a step that does
not fault takes the cycles of R120. That it rests in F0 after a fault or HLT too is the model's choice (log entry 18).
-/
def Obligations.SequencerRefinesTheStep : Prop :=
  ∀ (s t : State) (rdata : Byte), step s = .next t →
    ∃ k, 1 ≤ k ∧ k ≤ 5 ∧ (Sequencer.cycles k (Sequencer.start s rdata)).core = t
      ∧ (Sequencer.cycles k (Sequencer.start s rdata)).phase = .f0
      ∧ (∀ j, 1 ≤ j → j < k → (Sequencer.cycles j (Sequencer.start s rdata)).phase ≠ .f0)
      ∧ ∀ i, Fetches s i → Safe t → k = cycleCount i.mnemonic

/-- 70_reset_and_hazards.md R117 (the spec's decisions D16, D17): a PRN gives one output event, in the last of its
four cycles, with its register's byte. -/
def Obligations.OutPortFiresOncePerPrn : Prop :=
  ∀ (s : State) (a : Byte) (r : Fin 8) (rdata : Byte), s.status = .running → Fetches s (.prn a) →
    NamesReg s.cfg.regIndexPolicy a r → ∀ j, j < 4 →
      (Sequencer.cycles j (Sequencer.start s rdata)).outPort = if j = 3 then some (s.x r) else none
end

