-- ==== Sys2Proof/Laws/State.lean ====
section
/-! SUPPORT. One lemma per field per update of State, true by rfl, so that no proof unfolds a record update; and the
register reads through `State.x`. -/

namespace Sys2Proof.Machine

variable (s : State)

/-! ### setX -/

@[simp] theorem State.regs_setX (i : Fin 8) (v : Byte) : (s.setX i v).regs = s.regs.set i v := rfl
@[simp] theorem State.pc_setX (i : Fin 8) (v : Byte) : (s.setX i v).pc = s.pc := rfl
@[simp] theorem State.sp_setX (i : Fin 8) (v : Byte) : (s.setX i v).sp = s.sp := rfl
@[simp] theorem State.fl_setX (i : Fin 8) (v : Byte) : (s.setX i v).fl = s.fl := rfl
@[simp] theorem State.ir_setX (i : Fin 8) (v : Byte) : (s.setX i v).ir = s.ir := rfl
@[simp] theorem State.opA_setX (i : Fin 8) (v : Byte) : (s.setX i v).opA = s.opA := rfl
@[simp] theorem State.opB_setX (i : Fin 8) (v : Byte) : (s.setX i v).opB = s.opB := rfl
@[simp] theorem State.mem_setX (i : Fin 8) (v : Byte) : (s.setX i v).mem = s.mem := rfl
@[simp] theorem State.status_setX (i : Fin 8) (v : Byte) : (s.setX i v).status = s.status := rfl
@[simp] theorem State.out_setX (i : Fin 8) (v : Byte) : (s.setX i v).out = s.out := rfl
@[simp] theorem State.pc0_setX (i : Fin 8) (v : Byte) : (s.setX i v).pc0 = s.pc0 := rfl
@[simp] theorem State.cfg_setX (i : Fin 8) (v : Byte) : (s.setX i v).cfg = s.cfg := rfl

/-! ### setSp -/

@[simp] theorem State.regs_setSp (v : Cursor) : (s.setSp v).regs = s.regs := rfl
@[simp] theorem State.pc_setSp (v : Cursor) : (s.setSp v).pc = s.pc := rfl
@[simp] theorem State.sp_setSp (v : Cursor) : (s.setSp v).sp = v := rfl
@[simp] theorem State.fl_setSp (v : Cursor) : (s.setSp v).fl = s.fl := rfl
@[simp] theorem State.ir_setSp (v : Cursor) : (s.setSp v).ir = s.ir := rfl
@[simp] theorem State.opA_setSp (v : Cursor) : (s.setSp v).opA = s.opA := rfl
@[simp] theorem State.opB_setSp (v : Cursor) : (s.setSp v).opB = s.opB := rfl
@[simp] theorem State.mem_setSp (v : Cursor) : (s.setSp v).mem = s.mem := rfl
@[simp] theorem State.status_setSp (v : Cursor) : (s.setSp v).status = s.status := rfl
@[simp] theorem State.out_setSp (v : Cursor) : (s.setSp v).out = s.out := rfl
@[simp] theorem State.pc0_setSp (v : Cursor) : (s.setSp v).pc0 = s.pc0 := rfl
@[simp] theorem State.cfg_setSp (v : Cursor) : (s.setSp v).cfg = s.cfg := rfl
@[simp] theorem State.x_setSp (v : Cursor) (j : Fin 8) : (s.setSp v).x j = s.x j := rfl

/-! ### setFl -/

@[simp] theorem State.regs_setFl (v : Byte) : (s.setFl v).regs = s.regs := rfl
@[simp] theorem State.pc_setFl (v : Byte) : (s.setFl v).pc = s.pc := rfl
@[simp] theorem State.sp_setFl (v : Byte) : (s.setFl v).sp = s.sp := rfl
@[simp] theorem State.fl_setFl (v : Byte) : (s.setFl v).fl = v := rfl
@[simp] theorem State.ir_setFl (v : Byte) : (s.setFl v).ir = s.ir := rfl
@[simp] theorem State.opA_setFl (v : Byte) : (s.setFl v).opA = s.opA := rfl
@[simp] theorem State.opB_setFl (v : Byte) : (s.setFl v).opB = s.opB := rfl
@[simp] theorem State.mem_setFl (v : Byte) : (s.setFl v).mem = s.mem := rfl
@[simp] theorem State.status_setFl (v : Byte) : (s.setFl v).status = s.status := rfl
@[simp] theorem State.out_setFl (v : Byte) : (s.setFl v).out = s.out := rfl
@[simp] theorem State.pc0_setFl (v : Byte) : (s.setFl v).pc0 = s.pc0 := rfl
@[simp] theorem State.cfg_setFl (v : Byte) : (s.setFl v).cfg = s.cfg := rfl
@[simp] theorem State.x_setFl (v : Byte) (j : Fin 8) : (s.setFl v).x j = s.x j := rfl

/-! ### jump -/

@[simp] theorem State.regs_jump (t : Byte) : (s.jump t).regs = s.regs := rfl
theorem State.pc_jump (t : Byte) : (s.jump t).pc = t.setWidth 9 := rfl
@[simp] theorem State.sp_jump (t : Byte) : (s.jump t).sp = s.sp := rfl
@[simp] theorem State.fl_jump (t : Byte) : (s.jump t).fl = s.fl := rfl
@[simp] theorem State.ir_jump (t : Byte) : (s.jump t).ir = s.ir := rfl
@[simp] theorem State.opA_jump (t : Byte) : (s.jump t).opA = s.opA := rfl
@[simp] theorem State.opB_jump (t : Byte) : (s.jump t).opB = s.opB := rfl
@[simp] theorem State.mem_jump (t : Byte) : (s.jump t).mem = s.mem := rfl
@[simp] theorem State.status_jump (t : Byte) : (s.jump t).status = s.status := rfl
@[simp] theorem State.out_jump (t : Byte) : (s.jump t).out = s.out := rfl
@[simp] theorem State.pc0_jump (t : Byte) : (s.jump t).pc0 = s.pc0 := rfl
@[simp] theorem State.cfg_jump (t : Byte) : (s.jump t).cfg = s.cfg := rfl
@[simp] theorem State.x_jump (t : Byte) (j : Fin 8) : (s.jump t).x j = s.x j := rfl

/-! ### storeByte -/

@[simp] theorem State.regs_storeByte (a : Nat) (v : Byte) : (s.storeByte a v).regs = s.regs := rfl
@[simp] theorem State.pc_storeByte (a : Nat) (v : Byte) : (s.storeByte a v).pc = s.pc := rfl
@[simp] theorem State.sp_storeByte (a : Nat) (v : Byte) : (s.storeByte a v).sp = s.sp := rfl
@[simp] theorem State.fl_storeByte (a : Nat) (v : Byte) : (s.storeByte a v).fl = s.fl := rfl
@[simp] theorem State.ir_storeByte (a : Nat) (v : Byte) : (s.storeByte a v).ir = s.ir := rfl
@[simp] theorem State.opA_storeByte (a : Nat) (v : Byte) : (s.storeByte a v).opA = s.opA := rfl
@[simp] theorem State.opB_storeByte (a : Nat) (v : Byte) : (s.storeByte a v).opB = s.opB := rfl
@[simp] theorem State.mem_storeByte (a : Nat) (v : Byte) : (s.storeByte a v).mem = s.mem.write a v := rfl
@[simp] theorem State.status_storeByte (a : Nat) (v : Byte) : (s.storeByte a v).status = s.status := rfl
@[simp] theorem State.out_storeByte (a : Nat) (v : Byte) : (s.storeByte a v).out = s.out := rfl
@[simp] theorem State.pc0_storeByte (a : Nat) (v : Byte) : (s.storeByte a v).pc0 = s.pc0 := rfl
@[simp] theorem State.cfg_storeByte (a : Nat) (v : Byte) : (s.storeByte a v).cfg = s.cfg := rfl
@[simp] theorem State.x_storeByte (a : Nat) (v : Byte) (j : Fin 8) : (s.storeByte a v).x j = s.x j := rfl

/-! ### emit -/

@[simp] theorem State.regs_emit (v : Byte) : (s.emit v).regs = s.regs := rfl
@[simp] theorem State.pc_emit (v : Byte) : (s.emit v).pc = s.pc := rfl
@[simp] theorem State.sp_emit (v : Byte) : (s.emit v).sp = s.sp := rfl
@[simp] theorem State.fl_emit (v : Byte) : (s.emit v).fl = s.fl := rfl
@[simp] theorem State.ir_emit (v : Byte) : (s.emit v).ir = s.ir := rfl
@[simp] theorem State.opA_emit (v : Byte) : (s.emit v).opA = s.opA := rfl
@[simp] theorem State.opB_emit (v : Byte) : (s.emit v).opB = s.opB := rfl
@[simp] theorem State.mem_emit (v : Byte) : (s.emit v).mem = s.mem := rfl
@[simp] theorem State.status_emit (v : Byte) : (s.emit v).status = s.status := rfl
@[simp] theorem State.out_emit (v : Byte) : (s.emit v).out = s.out ++ [v] := rfl
@[simp] theorem State.pc0_emit (v : Byte) : (s.emit v).pc0 = s.pc0 := rfl
@[simp] theorem State.cfg_emit (v : Byte) : (s.emit v).cfg = s.cfg := rfl
@[simp] theorem State.x_emit (v : Byte) (j : Fin 8) : (s.emit v).x j = s.x j := rfl

/-! ### halt -/

@[simp] theorem State.regs_halt : s.halt.regs = s.regs := rfl
@[simp] theorem State.pc_halt : s.halt.pc = s.pc := rfl
@[simp] theorem State.sp_halt : s.halt.sp = s.sp := rfl
@[simp] theorem State.fl_halt : s.halt.fl = s.fl := rfl
@[simp] theorem State.ir_halt : s.halt.ir = s.ir := rfl
@[simp] theorem State.opA_halt : s.halt.opA = s.opA := rfl
@[simp] theorem State.opB_halt : s.halt.opB = s.opB := rfl
@[simp] theorem State.mem_halt : s.halt.mem = s.mem := rfl
@[simp] theorem State.status_halt : s.halt.status = .halted := rfl
@[simp] theorem State.out_halt : s.halt.out = s.out := rfl
@[simp] theorem State.pc0_halt : s.halt.pc0 = s.pc0 := rfl
@[simp] theorem State.cfg_halt : s.halt.cfg = s.cfg := rfl
@[simp] theorem State.x_halt (j : Fin 8) : s.halt.x j = s.x j := rfl

/-! ### raise -/

@[simp] theorem State.regs_raise (f : Fatal) : (s.raise f).regs = s.regs := rfl
@[simp] theorem State.pc_raise (f : Fatal) : (s.raise f).pc = s.pc := rfl
@[simp] theorem State.sp_raise (f : Fatal) : (s.raise f).sp = s.sp := rfl
@[simp] theorem State.fl_raise (f : Fatal) : (s.raise f).fl = s.fl := rfl
@[simp] theorem State.ir_raise (f : Fatal) : (s.raise f).ir = s.ir := rfl
@[simp] theorem State.opA_raise (f : Fatal) : (s.raise f).opA = s.opA := rfl
@[simp] theorem State.opB_raise (f : Fatal) : (s.raise f).opB = s.opB := rfl
@[simp] theorem State.mem_raise (f : Fatal) : (s.raise f).mem = s.mem := rfl
@[simp] theorem State.status_raise (f : Fatal) : (s.raise f).status = .faulted f := rfl
@[simp] theorem State.out_raise (f : Fatal) : (s.raise f).out = s.out := rfl
@[simp] theorem State.pc0_raise (f : Fatal) : (s.raise f).pc0 = s.pc0 := rfl
@[simp] theorem State.cfg_raise (f : Fatal) : (s.raise f).cfg = s.cfg := rfl
@[simp] theorem State.x_raise (f : Fatal) (j : Fin 8) : (s.raise f).x j = s.x j := rfl

/-! ### latch -/

@[simp] theorem State.regs_latch (ir opA opB : Byte) : (s.latch ir opA opB).regs = s.regs := rfl
@[simp] theorem State.pc_latch (ir opA opB : Byte) : (s.latch ir opA opB).pc = advance s.cfg.addrPolicy s.pc (operandField ir) := rfl
@[simp] theorem State.sp_latch (ir opA opB : Byte) : (s.latch ir opA opB).sp = s.sp := rfl
@[simp] theorem State.fl_latch (ir opA opB : Byte) : (s.latch ir opA opB).fl = s.fl := rfl
@[simp] theorem State.ir_latch (ir opA opB : Byte) : (s.latch ir opA opB).ir = ir := rfl
@[simp] theorem State.opA_latch (ir opA opB : Byte) : (s.latch ir opA opB).opA = opA := rfl
@[simp] theorem State.opB_latch (ir opA opB : Byte) : (s.latch ir opA opB).opB = opB := rfl
@[simp] theorem State.mem_latch (ir opA opB : Byte) : (s.latch ir opA opB).mem = s.mem := rfl
@[simp] theorem State.status_latch (ir opA opB : Byte) : (s.latch ir opA opB).status = s.status := rfl
@[simp] theorem State.out_latch (ir opA opB : Byte) : (s.latch ir opA opB).out = s.out := rfl
@[simp] theorem State.pc0_latch (ir opA opB : Byte) : (s.latch ir opA opB).pc0 = s.pc := rfl
@[simp] theorem State.cfg_latch (ir opA opB : Byte) : (s.latch ir opA opB).cfg = s.cfg := rfl
@[simp] theorem State.x_latch (ir opA opB : Byte) (j : Fin 8) : (s.latch ir opA opB).x j = s.x j := rfl

/-- Reading a register after writing one (10_state.md R13). -/
@[simp] theorem State.x_setX (i : Fin 8) (v : Byte) (j : Fin 8) :
    (s.setX i v).x j = if j = i then v else s.x j := by
  simp only [State.x, State.setX, Fin.getElem_fin, Vector.getElem_set, Fin.val_inj, eq_comm]

/-- A jump's target is eight bits wide, so pc has its value (44_control.md R92). -/
@[simp] theorem State.pc_jump_toNat (t : Byte) : (s.jump t).pc.toNat = t.toNat := by
  have h := t.isLt
  simp only [State.pc_jump, BitVec.toNat_setWidth]
  exact Nat.mod_eq_of_lt (by omega)

/-! ### resetWith -/

@[simp] theorem State.regs_resetWith (c : Config) : (State.resetWith c).regs = #v[0, 0, 0, 0, 0, 0, 0, 255] := rfl
@[simp] theorem State.pc_resetWith (c : Config) : (State.resetWith c).pc = 0 := rfl
@[simp] theorem State.sp_resetWith (c : Config) : (State.resetWith c).sp = 255 := rfl
@[simp] theorem State.fl_resetWith (c : Config) : (State.resetWith c).fl = 0 := rfl
@[simp] theorem State.ir_resetWith (c : Config) : (State.resetWith c).ir = 0 := rfl
@[simp] theorem State.opA_resetWith (c : Config) : (State.resetWith c).opA = 0 := rfl
@[simp] theorem State.opB_resetWith (c : Config) : (State.resetWith c).opB = 0 := rfl
@[simp] theorem State.mem_resetWith (c : Config) : (State.resetWith c).mem = [] := rfl
@[simp] theorem State.status_resetWith (c : Config) : (State.resetWith c).status = .running := rfl
@[simp] theorem State.out_resetWith (c : Config) : (State.resetWith c).out = [] := rfl
@[simp] theorem State.pc0_resetWith (c : Config) : (State.resetWith c).pc0 = 0 := rfl
@[simp] theorem State.cfg_resetWith (c : Config) : (State.resetWith c).cfg = c := rfl

end Sys2Proof.Machine
end

