-- ==== Sys2Proof/Laws/Boot.lean ====
section
/-! SUPPORT. What the load port and the status ports can do, said once (spec/70_reset_and_hazards.md R116). -/

namespace Sys2Proof.Machine

/-! ### The load port -/

theorem LoadPort.accepts_iff (p : LoadPort) :
    p.accepts = true ↔ p.core.status = .running ∧ p.count.toNat < 256 := by
  rw [LoadPort.accepts, Bool.and_eq_true, decide_eq_true_iff]
  cases p.core.status <;> simp [Status.stopReason, Memory.size]

/-- A byte the port accepts goes to the counted address. -/
theorem LoadPort.offer_accepted {p : LoadPort} (h : p.accepts = true) (v : Byte) :
    p.offer v = ⟨p.core.storeByte p.count.toNat v, p.count + 1⟩ := if_pos h

/-- Any other byte leaves the fault, and no port that accepts a byte. -/
theorem LoadPort.offer_refused {p : LoadPort} (h : p.accepts = false) (v : Byte) :
    (p.offer v).core.status = .faulted (.capacityError 257) ∧ (p.offer v).accepts = false := by
  rw [LoadPort.offer, if_neg (by simp [h])]
  exact ⟨rfl, rfl⟩

/-! ### The status ports -/

@[simp] theorem Status.ports_fault (s : Status) : s.ports.fault = true ↔ ∃ f, s = .faulted f := by
  cases s <;> simp [Status.ports]

@[simp] theorem Status.ports_halted (s : Status) : s.ports.halted = true ↔ s = .halted := by
  cases s <;> simp [Status.ports]

@[simp] theorem Status.ports_faulted (f : Fatal) :
    (Status.faulted f).ports = ⟨false, true, BitVec.ofNat 3 f.code⟩ := rfl

end Sys2Proof.Machine
end

