-- ==== Sys2Proof/Laws/Decode.lean ====
section
/-! SUPPORT. The laws of the decoder and the encoder. -/

namespace Sys2Proof

theorem Mnemonic.mem_all (k : Mnemonic) : k ∈ Mnemonic.all := by cases k <;> decide

/-- A byte the lookup finds is the byte of the mnemonic found. -/
theorem OpcodeMap.byteOf_mnemonicOf {m : OpcodeMap} {ir : Byte} {k : Mnemonic}
    (h : m.mnemonicOf ir = some k) : m.byteOf k = ir := by
  simpa using List.find?_some h

theorem OpcodeMap.mnemonicOf_eq_none {m : OpcodeMap} {ir : Byte} :
    m.mnemonicOf ir = none ↔ ∀ k, m.byteOf k ≠ ir := by
  simp [OpcodeMap.mnemonicOf, Mnemonic.mem_all]

/-- The bytes of a well-formed map are distinct. -/
theorem OpcodeMap.byteOf_inj {m : OpcodeMap} (hm : m.wellFormed = true) {j k : Mnemonic}
    (h : m.byteOf j = m.byteOf k) : j = k := by
  have hn : (Mnemonic.all.map m.byteOf).Nodup := by
    simp only [OpcodeMap.wellFormed, Bool.and_eq_true, decide_eq_true_eq] at hm
    exact hm.2
  exact List.inj_on_of_nodup_map hn (Mnemonic.mem_all j) (Mnemonic.mem_all k) h

/-- Bits 7:6 of a well-formed map's byte are the operand count. -/
theorem OpcodeMap.operandField_byteOf {m : OpcodeMap} (hm : m.wellFormed = true) (k : Mnemonic) :
    operandField (m.byteOf k) = k.format.operandCount := by
  simp only [OpcodeMap.wellFormed, Bool.and_eq_true, List.all_eq_true, beq_iff_eq] at hm
  exact hm.1.1 k (Mnemonic.mem_all k)

theorem OpcodeMap.byteOf_ne_zero {m : OpcodeMap} (hm : m.wellFormed = true) (k : Mnemonic) :
    m.byteOf k ≠ 0 := by
  simp only [OpcodeMap.wellFormed, Bool.and_eq_true, List.all_eq_true, bne_iff_ne] at hm
  exact hm.1.2 k (Mnemonic.mem_all k)

/-- Looking up a mnemonic's own byte finds that mnemonic. -/
theorem OpcodeMap.mnemonicOf_byteOf {m : OpcodeMap} (hm : m.wellFormed = true) (k : Mnemonic) :
    m.mnemonicOf (m.byteOf k) = some k := by
  cases h : m.mnemonicOf (m.byteOf k) with
  | none => exact absurd rfl (OpcodeMap.mnemonicOf_eq_none.1 h k)
  | some j => rw [OpcodeMap.byteOf_inj hm (OpcodeMap.byteOf_mnemonicOf h)]

theorem assemble_mnemonic (k : Mnemonic) (a b : Byte) : (assemble k a b).mnemonic = k := by cases k <;> rfl

/-- Everything the decoder can answer. -/
theorem decode_cases (m : OpcodeMap) (ir opA opB : Byte) :
    (∃ k, m.byteOf k = ir ∧ m.mnemonicOf ir = some k ∧ decode m ir opA opB = .ok (assemble k opA opB))
      ∨ ((∀ k, m.byteOf k ≠ ir) ∧ decode m ir opA opB = .error (.illegalOpcode ir)) := by
  unfold decode
  cases h : m.mnemonicOf ir with
  | some k => exact .inl ⟨k, OpcodeMap.byteOf_mnemonicOf h, rfl, rfl⟩
  | none => exact .inr ⟨OpcodeMap.mnemonicOf_eq_none.1 h, rfl⟩

end Sys2Proof
end

