-- ==== Sys2Proof/Laws/Memory.lean ====
section
/-! SUPPORT. The laws of memory: a read after a write, and that every operation keeps the canonical form. -/

namespace Sys2Proof.Machine

@[simp] theorem Memory.read_nil (a : Nat) : Memory.read [] a = Memory.unlisted := rfl

theorem Memory.read_cons (b : Nat) (w : Byte) (m : Memory) (a : Nat) :
    Memory.read ((b, w) :: m) a = if a = b then w else Memory.read m a := rfl

/-- An address below every listed one, or in any way not listed, reads as unlisted. -/
theorem Memory.read_of_not_listed {m : Memory} {a : Nat} (h : ∀ p ∈ m, p.1 ≠ a) :
    m.read a = Memory.unlisted := by
  induction m with
  | nil => rfl
  | cons p m ih =>
    obtain ⟨b, w⟩ := p
    rw [Memory.read_cons, if_neg fun e => h _ List.mem_cons_self e.symm]
    exact ih fun q hq => h q (List.mem_cons_of_mem _ hq)

/-- A byte put in front is read back, and every other address reads as before. -/
theorem Memory.read_putFront {m : Memory} {a : Nat} (h : ∀ p ∈ m, p.1 ≠ a) (v : Byte) (b : Nat) :
    (Memory.cons a v m).read b = if b = a then v else m.read b := by
  unfold Memory.cons
  split
  · rename_i hv
    split
    · rename_i hb; rw [hb, Memory.read_of_not_listed h, hv]
    · rfl
  · exact Memory.read_cons a v m b

/-- A write leaves every other address alone, whatever the form of the memory. -/
theorem Memory.read_write_other (m : Memory) {a b : Nat} (v : Byte) (h : b ≠ a) :
    (m.write a v).read b = m.read b := by
  induction m with
  | nil => simp only [Memory.write, Memory.cons]; split <;> simp [Memory.read_cons, h]
  | cons p m ih =>
    obtain ⟨c, w⟩ := p
    simp only [Memory.write, Memory.cons]
    split
    · split <;> simp [Memory.read_cons, h]
    · split
      · rename_i hc; subst hc
        split <;> simp [Memory.read_cons, h]
      · simp [Memory.read_cons, ih]

/-- A read after a write to the same address gives the value written. -/
theorem Memory.read_write_same {m : Memory} (hm : m.wf) (a : Nat) (v : Byte) :
    (m.write a v).read a = v := by
  induction m with
  | nil => simpa [Memory.write] using Memory.read_putFront (m := []) (a := a) (by simp) v a
  | cons p m ih =>
    obtain ⟨c, w⟩ := p
    have hs := List.pairwise_cons.1 hm.1
    have hm' : Memory.wf m := ⟨hs.2, fun q hq => hm.2 q (List.mem_cons_of_mem _ hq)⟩
    simp only [Memory.write]
    split
    · rename_i hlt
      rw [Memory.read_putFront _ v a, if_pos rfl]
      intro q hq
      rcases List.mem_cons.1 hq with rfl | hq
      · exact Nat.ne_of_gt hlt
      · exact Nat.ne_of_gt (Nat.lt_trans hlt (hs.1 q hq))
    · split
      · rename_i hac
        rw [Memory.read_putFront _ v a, if_pos rfl]
        intro q hq
        rw [hac]
        exact Nat.ne_of_gt (hs.1 q hq)
      · rename_i hac
        rw [Memory.read_cons, if_neg hac, ih hm']

/-- Both laws of a write at once. -/
theorem Memory.read_write {m : Memory} (hm : m.wf) (a : Nat) (v : Byte) (b : Nat) :
    (m.write a v).read b = if b = a then v else m.read b := by
  split
  · rename_i h; rw [h, Memory.read_write_same hm]
  · rename_i h; exact Memory.read_write_other m v h

/-- What is listed after a write was listed before or is the byte written. -/
theorem Memory.mem_write {m : Memory} {a : Nat} {v : Byte} {p : Host.Cell} (h : p ∈ m.write a v) :
    p ∈ m ∨ (p = (a, v) ∧ v ≠ Memory.unlisted) := by
  induction m with
  | nil =>
    simp only [Memory.write, Memory.cons] at h
    split at h
    · exact .inl h
    · rename_i hv; exact .inr ⟨List.mem_singleton.1 h, hv⟩
  | cons q m ih =>
    obtain ⟨c, w⟩ := q
    simp only [Memory.write, Memory.cons] at h
    split at h
    · split at h
      · exact .inl h
      · rename_i hv
        rcases List.mem_cons.1 h with h | h
        · exact .inr ⟨h, hv⟩
        · exact .inl h
    · split at h
      · split at h
        · exact .inl (List.mem_cons_of_mem _ h)
        · rename_i hv
          rcases List.mem_cons.1 h with h | h
          · exact .inr ⟨h, hv⟩
          · exact .inl (List.mem_cons_of_mem _ h)
      · rcases List.mem_cons.1 h with h | h
        · exact .inl (h ▸ List.mem_cons_self)
        · exact (ih h).imp_left (List.mem_cons_of_mem _)

theorem Memory.nil_wf : Memory.wf [] := ⟨List.Pairwise.nil, by simp⟩

/-- A byte in the address space put in front of higher addresses keeps the canonical form. -/
theorem Memory.cons_wf {m : Memory} (hm : m.wf) {a : Nat} (v : Byte) (ha : a < Memory.size)
    (hlow : ∀ p ∈ m, a < p.1) : (Memory.cons a v m).wf := by
  unfold Memory.cons
  split
  · exact hm
  · rename_i hv
    refine ⟨List.pairwise_cons.2 ⟨hlow, hm.1⟩, ?_⟩
    intro p hp
    rcases List.mem_cons.1 hp with rfl | hp
    · exact ⟨ha, hv⟩
    · exact hm.2 p hp

/-- A write inside the address space keeps the canonical form. -/
theorem Memory.write_wf {m : Memory} (hm : m.wf) {a : Nat} (v : Byte) (ha : a < Memory.size) :
    (m.write a v).wf := by
  induction m with
  | nil => exact Memory.cons_wf Memory.nil_wf v ha (by simp)
  | cons p m ih =>
    obtain ⟨c, w⟩ := p
    have hs := List.pairwise_cons.1 hm.1
    have hm' : Memory.wf m := ⟨hs.2, fun q hq => hm.2 q (List.mem_cons_of_mem _ hq)⟩
    simp only [Memory.write]
    split
    · rename_i hlt
      refine Memory.cons_wf hm v ha fun q hq => ?_
      rcases List.mem_cons.1 hq with rfl | hq
      · exact hlt
      · exact Nat.lt_trans hlt (hs.1 q hq)
    · split
      · rename_i hac
        exact Memory.cons_wf hm' v ha fun q hq => hac ▸ hs.1 q hq
      · rename_i hlt hac
        have hi := ih hm'
        refine ⟨List.pairwise_cons.2 ⟨fun q hq => ?_, hi.1⟩, fun q hq => ?_⟩
        · rcases Memory.mem_write hq with hq | ⟨rfl, -⟩
          · exact hs.1 q hq
          · exact Nat.lt_of_le_of_ne (Nat.le_of_not_lt hlt) (Ne.symm hac)
        · rcases List.mem_cons.1 hq with rfl | hq
          · exact hm.2 _ List.mem_cons_self
          · exact hi.2 q hq

/-- Every listed address of a placed byte sequence lies at or above its start and below its end. -/
theorem Memory.mem_ofBytes {a : Nat} {l : List Byte} {p : Host.Cell} (h : p ∈ Memory.ofBytes a l) :
    a ≤ p.1 ∧ p.1 < a + l.length ∧ p.2 ≠ Memory.unlisted := by
  induction l generalizing a with
  | nil => cases h
  | cons v vs ih =>
    simp only [Memory.ofBytes, Memory.cons] at h
    simp only [List.length_cons]
    split at h
    · have h' := ih h; exact ⟨by omega, by omega, h'.2.2⟩
    · rename_i hv
      rcases List.mem_cons.1 h with rfl | h
      · exact ⟨Nat.le_refl _, by simp, hv⟩
      · have h' := ih h; exact ⟨by omega, by omega, h'.2.2⟩

/-- A byte sequence placed inside the address space is in canonical form. -/
theorem Memory.ofBytes_wf {a : Nat} {l : List Byte} (h : a + l.length ≤ Memory.size) :
    (Memory.ofBytes a l).wf := by
  induction l generalizing a with
  | nil => exact Memory.nil_wf
  | cons v vs ih =>
    simp only [List.length_cons] at h
    exact Memory.cons_wf (ih (by omega)) v (by omega) fun p hp => (Memory.mem_ofBytes hp).1

/-- A placed byte sequence reads back, and every other address reads as unlisted. -/
theorem Memory.read_ofBytes (a : Nat) (l : List Byte) (b : Nat) :
    (Memory.ofBytes a l).read b = if a ≤ b then l.getD (b - a) Memory.unlisted else Memory.unlisted := by
  induction l generalizing a with
  | nil => simp [Memory.ofBytes]
  | cons v vs ih =>
    rw [Memory.ofBytes, Memory.read_putFront, ih]
    · rcases Nat.lt_trichotomy b a with h | h | h
      · simp [Nat.not_le.2 h, Nat.ne_of_lt h, Nat.not_le.2 (Nat.lt_succ_of_lt h)]
      · simp [h]
      · obtain ⟨k, rfl⟩ : ∃ k, b = a + 1 + k := ⟨b - (a + 1), by omega⟩
        have e : a + 1 + k - a = k + 1 := by omega
        simp [e, show a ≤ a + 1 + k by omega, show ¬ a + 1 + k = a by omega]
    · intro p hp e
      have := (Memory.mem_ofBytes hp).1
      omega

/-- Two memories in canonical form that read the same are the same list. -/
theorem Memory.ext_of_read {m n : Memory} (hm : m.wf) (hn : n.wf) (h : ∀ a, m.read a = n.read a) : m = n := by
  induction m generalizing n with
  | nil =>
    cases n with
    | nil => rfl
    | cons q n => exact absurd ((h q.1).symm.trans rfl) (by
        rw [Memory.read_cons, if_pos rfl]; exact (hn.2 q List.mem_cons_self).2)
  | cons p m ih =>
    cases n with
    | nil => exact absurd ((h p.1).trans rfl) (by
        rw [Memory.read_cons, if_pos rfl]; exact (hm.2 p List.mem_cons_self).2)
    | cons q n =>
      obtain ⟨a, v⟩ := p
      obtain ⟨b, w⟩ := q
      have sm := List.pairwise_cons.1 hm.1
      have sn := List.pairwise_cons.1 hn.1
      have above {c : Nat} {l : Memory} (hl : ∀ r ∈ l, c < r.1) {d : Nat} (hd : d ≤ c) :
          Memory.read l d = Memory.unlisted :=
        Memory.read_of_not_listed fun r hr e => by
          have := hl r hr
          omega
      have hv : v ≠ Memory.unlisted := (hm.2 _ List.mem_cons_self).2
      have hw : w ≠ Memory.unlisted := (hn.2 _ List.mem_cons_self).2
      have hab : a = b := by
        have ha := h a
        have hb := h b
        simp only [Memory.read_cons, if_true] at ha hb
        rcases Nat.lt_trichotomy a b with hlt | he | hlt
        · rw [if_neg (Nat.ne_of_lt hlt), above sn.1 (Nat.le_of_lt hlt)] at ha; exact absurd ha hv
        · exact he
        · rw [if_neg (Nat.ne_of_lt hlt), above sm.1 (Nat.le_of_lt hlt)] at hb; exact absurd hb.symm hw
      subst hab
      have hvw : v = w := by simpa [Memory.read_cons] using h a
      subst hvw
      congr 1
      refine ih ⟨sm.2, fun r hr => hm.2 r (List.mem_cons_of_mem _ hr)⟩
        ⟨sn.2, fun r hr => hn.2 r (List.mem_cons_of_mem _ hr)⟩ fun c => ?_
      have hc := h c
      simp only [Memory.read_cons] at hc
      by_cases hca : c = a
      · rw [hca, above sm.1 (Nat.le_refl a), above sn.1 (Nat.le_refl a)]
      · rwa [if_neg hca, if_neg hca] at hc

end Sys2Proof.Machine
end

