-- ==== Sys2Proof/Laws/Ops.lean ====
section
/-! SUPPORT. One lemma per shared operation, which says once everything it can do. Provers cite these instead of
unfolding the operation. -/

namespace Sys2Proof.Machine

/-! ### Register operands -/

theorem regIndex_of_names {p : RegIndexPolicy} {a : Byte} {r : Fin 8} (h : NamesReg p a r) :
    regIndex p a = some r := by
  unfold regIndex
  rcases h with ⟨hlt, hr⟩ | ⟨hge, rfl, hr⟩
  · rw [dif_pos hlt, Option.some_inj, Fin.ext_iff]; exact hr.symm
  · rw [dif_neg (by omega), Option.some_inj, Fin.ext_iff]; exact hr.symm

theorem regIndex_of_none {p : RegIndexPolicy} {a : Byte} (h : NamesNone p a) : regIndex p a = none := by
  obtain ⟨hge, rfl⟩ := h
  simp [regIndex, Nat.not_lt.2 hge]

theorem names_of_regIndex {p : RegIndexPolicy} {a : Byte} {r : Fin 8} (h : regIndex p a = some r) :
    NamesReg p a r := by
  unfold regIndex at h
  split at h
  · rename_i hlt; cases h; exact .inl ⟨hlt, rfl⟩
  · rename_i hlt
    cases p <;> simp at h
    subst h; exact .inr ⟨Nat.not_lt.1 hlt, rfl, rfl⟩

theorem none_of_regIndex {p : RegIndexPolicy} {a : Byte} (h : regIndex p a = none) : NamesNone p a := by
  unfold regIndex at h
  split at h
  · cases h
  · rename_i hlt; cases p <;> simp at h; exact ⟨Nat.not_lt.1 hlt, rfl⟩

/-- Every operand byte names one register or none. -/
theorem names_or_none (p : RegIndexPolicy) (a : Byte) : (∃ r, NamesReg p a r) ∨ NamesNone p a := by
  cases h : regIndex p a with
  | some r => exact .inl ⟨r, names_of_regIndex h⟩
  | none => exact .inr (none_of_regIndex h)

theorem withReg_names {s : State} {a : Byte} {r : Fin 8} (h : NamesReg s.cfg.regIndexPolicy a r)
    (k : Fin 8 → Result) : withReg s a k = k r := by
  simp [withReg, regIndex_of_names h]

theorem withReg_none {s : State} {a : Byte} (h : NamesNone s.cfg.regIndexPolicy a) (k : Fin 8 → Result) :
    withReg s a k = .next (s.raise (.badRegister a s.pc0)) := by
  simp [withReg, regIndex_of_none h]

/-- Everything a register operand can do. -/
theorem withReg_cases (s : State) (a : Byte) (k : Fin 8 → Result) :
    (∃ r, NamesReg s.cfg.regIndexPolicy a r ∧ withReg s a k = k r)
      ∨ (NamesNone s.cfg.regIndexPolicy a ∧ withReg s a k = .next (s.raise (.badRegister a s.pc0))) := by
  rcases names_or_none s.cfg.regIndexPolicy a with ⟨r, h⟩ | h
  · exact .inl ⟨r, h, withReg_names h k⟩
  · exact .inr ⟨h, withReg_none h k⟩

/-! ### Addresses -/

theorem addrOk_of_reaches {p : AddrPolicy} {a k : Nat} (h : ReachesByte p a k) : addrOk p a = some k := by
  unfold addrOk
  rcases h with ⟨hle, rfl⟩ | ⟨hge, rfl, rfl⟩
  · rw [if_pos hle]
  · rw [if_neg (by omega)]

theorem addrOk_of_none {p : AddrPolicy} {a : Nat} (h : ReachesNone p a) : addrOk p a = none := by
  obtain ⟨hge, rfl⟩ := h
  rw [addrOk, if_neg (by omega)]

theorem reaches_of_addrOk {p : AddrPolicy} {a k : Nat} (h : addrOk p a = some k) : ReachesByte p a k := by
  unfold addrOk at h
  split at h
  · rename_i hle; cases h; exact .inl ⟨hle, rfl⟩
  · rename_i hle
    cases p <;> simp at h
    exact .inr ⟨by omega, rfl, h.symm⟩

theorem none_of_addrOk {p : AddrPolicy} {a : Nat} (h : addrOk p a = none) : ReachesNone p a := by
  unfold addrOk at h
  split at h
  · cases h
  · rename_i hle; cases p <;> simp at h; exact ⟨by omega, rfl⟩

/-- Every address reaches one byte or none. -/
theorem reaches_or_none (p : AddrPolicy) (a : Nat) : (∃ k, ReachesByte p a k) ∨ ReachesNone p a := by
  cases h : addrOk p a with
  | some k => exact .inl ⟨k, reaches_of_addrOk h⟩
  | none => exact .inr (none_of_addrOk h)

/-- The byte reached lies in the address space. -/
theorem ReachesByte.lt_size {p : AddrPolicy} {a k : Nat} (h : ReachesByte p a k) : k < Memory.size := by
  unfold Memory.size
  rcases h with ⟨hle, rfl⟩ | ⟨-, -, rfl⟩ <;> omega

/-- Everything a read can do. -/
theorem memRead_cases (s : State) (a : Nat) (k : Byte → Result) :
    (∃ b, ReachesByte s.cfg.addrPolicy a b ∧ memRead s a k = k (s.mem.read b))
      ∨ (ReachesNone s.cfg.addrPolicy a ∧ memRead s a k = .next (s.raise (.addressOutOfRange a s.pc0))) := by
  rcases reaches_or_none s.cfg.addrPolicy a with ⟨b, h⟩ | h
  · exact .inl ⟨b, h, by simp [memRead, addrOk_of_reaches h]⟩
  · exact .inr ⟨h, by simp [memRead, addrOk_of_none h]⟩

/-- Everything a write can do. -/
theorem memWrite_cases (s : State) (a : Nat) (v : Byte) (k : State → Result) :
    (∃ b, ReachesByte s.cfg.addrPolicy a b ∧ memWrite s a v k = k (s.storeByte b v))
      ∨ (ReachesNone s.cfg.addrPolicy a
        ∧ memWrite s a v k = .next (s.raise (.addressOutOfRange a s.pc0))) := by
  rcases reaches_or_none s.cfg.addrPolicy a with ⟨b, h⟩ | h
  · exact .inl ⟨b, h, by simp [memWrite, addrOk_of_reaches h]⟩
  · exact .inr ⟨h, by simp [memWrite, addrOk_of_none h]⟩

/-- Everything a push can do: the sp write is in both cases. -/
theorem pushByte_cases (s : State) (v : Byte) (k : State → Result) :
    (∃ b, ReachesByte s.cfg.addrPolicy (spDec s.cfg.spWrap s.sp).toNat b
        ∧ pushByte s v k = k ((s.setSp (spDec s.cfg.spWrap s.sp)).storeByte b v))
      ∨ (ReachesNone s.cfg.addrPolicy (spDec s.cfg.spWrap s.sp).toNat
        ∧ pushByte s v k = .next ((s.setSp (spDec s.cfg.spWrap s.sp)).raise
            (.addressOutOfRange (spDec s.cfg.spWrap s.sp).toNat s.pc0))) :=
  memWrite_cases (s.setSp (spDec s.cfg.spWrap s.sp)) _ v k

/-! ### The stack pointer and the program counter as numbers -/

theorem modulus_pos (w : SpWrap) : 0 < w.modulus := by cases w <;> decide

theorem modulus_le (w : SpWrap) : w.modulus ≤ 257 := by cases w <;> decide

theorem spDec_toNat (w : SpWrap) (sp : Cursor) :
    (spDec w sp).toNat = (sp.toNat + w.modulus - 1) % w.modulus := by
  have h := Nat.mod_lt (sp.toNat + w.modulus - 1) (modulus_pos w)
  have h' := modulus_le w
  rw [spDec, BitVec.toNat_ofNat, Nat.mod_eq_of_lt (a := _ % _) (by omega)]

theorem spInc_toNat (w : SpWrap) (sp : Cursor) : (spInc w sp).toNat = (sp.toNat + 1) % w.modulus := by
  have h := Nat.mod_lt (sp.toNat + 1) (modulus_pos w)
  have h' := modulus_le w
  rw [spInc, BitVec.toNat_ofNat, Nat.mod_eq_of_lt (a := _ % _) (by omega)]

theorem spDec_lt (w : SpWrap) (sp : Cursor) : (spDec w sp).toNat < w.modulus := by
  rw [spDec_toNat]; exact Nat.mod_lt _ (modulus_pos w)

theorem spInc_lt (w : SpWrap) (sp : Cursor) : (spInc w sp).toNat < w.modulus := by
  rw [spInc_toNat]; exact Nat.mod_lt _ (modulus_pos w)

theorem operandField_le (ir : Byte) : operandField ir ≤ 3 := by
  have := ir.isLt
  simp only [operandField, BitVec.toNat_ushiftRight, Nat.shiftRight_eq_div_pow]
  omega

/-! ### The ALU -/

theorem alu_add (s : State) (ra rb : Fin 8) : alu s 0b00 ra rb = .next (s.setX ra (s.x ra + s.x rb)) := rfl

theorem alu_mul (s : State) (ra rb : Fin 8) : alu s 0b01 ra rb = .next (s.setX ra (s.x ra * s.x rb)) := rfl

theorem alu_cmp (s : State) (ra rb : Fin 8) :
    alu s 0b10 ra rb = .next (s.setFl (compareFlags (s.x ra) (s.x rb))) := rfl

/-- Everything the ALU can do. -/
theorem alu_cases (s : State) (sel : BitVec 2) (ra rb : Fin 8) :
    (∃ y, alu s sel ra rb = .next (s.setX ra y))
      ∨ (∃ f, sel = 0b10 ∧ alu s sel ra rb = .next (s.setFl f))
      ∨ (sel = 0b11 ∧ alu s sel ra rb = .next (s.raise (.unsupportedAluOp sel s.pc0))) := by
  have h : sel = 0b00 ∨ sel = 0b01 ∨ sel = 0b10 ∨ sel = 0b11 := by revert sel; decide
  rcases h with rfl | rfl | rfl | rfl
  · exact .inl ⟨_, alu_add s ra rb⟩
  · exact .inl ⟨_, alu_mul s ra rb⟩
  · exact .inr (.inl ⟨_, rfl, alu_cmp s ra rb⟩)
  · exact .inr (.inr ⟨rfl, rfl⟩)

/-- Everything an instruction of format F2RR can do: operand a is checked before operand b. -/
theorem aluInstr_cases (s : State) (sel : BitVec 2) (a b : Byte) :
    (∃ ra rb, NamesReg s.cfg.regIndexPolicy a ra ∧ NamesReg s.cfg.regIndexPolicy b rb
        ∧ aluInstr s sel a b = alu s sel ra rb)
      ∨ (∃ ra, NamesReg s.cfg.regIndexPolicy a ra ∧ NamesNone s.cfg.regIndexPolicy b
        ∧ aluInstr s sel a b = .next (s.raise (.badRegister b s.pc0)))
      ∨ (NamesNone s.cfg.regIndexPolicy a
        ∧ aluInstr s sel a b = .next (s.raise (.badRegister a s.pc0))) := by
  unfold aluInstr
  rcases withReg_cases s a (fun ra => withReg s b fun rb => alu s sel ra rb) with ⟨ra, ha, h⟩ | ⟨ha, h⟩
  · rcases withReg_cases s b (fun rb => alu s sel ra rb) with ⟨rb, hb, h'⟩ | ⟨hb, h'⟩
    · exact .inl ⟨ra, rb, ha, hb, h.trans h'⟩
    · exact .inr (.inl ⟨ra, ha, hb, h.trans h'⟩)
  · exact .inr (.inr ⟨ha, h⟩)

/-- An operand byte names at most one register. -/
theorem NamesReg.unique {p : RegIndexPolicy} {a : Byte} {r q : Fin 8} (hr : NamesReg p a r)
    (hq : NamesReg p a q) : r = q :=
  Option.some.inj ((regIndex_of_names hr).symm.trans (regIndex_of_names hq))

/-- An operand byte that names a register does not name none. -/
theorem NamesReg.not_none {p : RegIndexPolicy} {a : Byte} {r : Fin 8} (hr : NamesReg p a r) :
    ¬ NamesNone p a := fun h => by
  have := (regIndex_of_names hr).symm.trans (regIndex_of_none h)
  cases this

end Sys2Proof.Machine
end

