-- ==== Sys2Proof/Laws/PerInstr.lean ====
section
/-! SUPPORT. The per-instruction family EncodingShape: the shape of each instruction's encoding (spec/30_encoding.md
R46, R47, R51), one lemma per constructor. -/

namespace Sys2Proof.Laws.EncodingShape

/-- Under every well-formed opcode map, the encoding of `i` is its opcode byte and its operand bytes, its length is
one more than the operand-count field of its opcode byte, and that field is at most 2. -/
def Statement (i : Instr) : Prop :=
  ∀ m : OpcodeMap, m.wellFormed = true →
    encode m i = m.byteOf i.mnemonic :: i.operands
      ∧ (encode m i).length = 1 + operandField (m.byteOf i.mnemonic)
      ∧ operandField (m.byteOf i.mnemonic) ≤ 2

/-- The statement from the one fact that differs between instructions: how many operand bytes there are. -/
theorem of_operand_count {i : Instr} (h : i.operands.length = i.mnemonic.format.operandCount) :
    Statement i := fun _ hm => by
  rw [OpcodeMap.operandField_byteOf hm]
  exact ⟨rfl, by rw [← h, Nat.add_comm]; rfl, by cases i.mnemonic <;> decide⟩

theorem hlt : Statement .hlt := of_operand_count rfl

theorem ldi (a imm : Byte) : Statement (.ldi a imm) := of_operand_count rfl

theorem prn (a : Byte) : Statement (.prn a) := of_operand_count rfl

theorem add (a b : Byte) : Statement (.add a b) := of_operand_count rfl

theorem mul (a b : Byte) : Statement (.mul a b) := of_operand_count rfl

theorem cmp (a b : Byte) : Statement (.cmp a b) := of_operand_count rfl

theorem push (a : Byte) : Statement (.push a) := of_operand_count rfl

theorem pop (a : Byte) : Statement (.pop a) := of_operand_count rfl

theorem call (a : Byte) : Statement (.call a) := of_operand_count rfl

theorem ret : Statement .ret := of_operand_count rfl

theorem jmp (a : Byte) : Statement (.jmp a) := of_operand_count rfl

theorem jeq (a : Byte) : Statement (.jeq a) := of_operand_count rfl

theorem jne (a : Byte) : Statement (.jne a) := of_operand_count rfl

end Sys2Proof.Laws.EncodingShape
end

