-- ==== Sys2Proof/Laws/Step.lean ====
section
/-! SUPPORT. What the front of a step and a step can do, said once (spec/40_fetch_decode.md R67). -/

namespace Sys2Proof.Machine

/-! ### The fetch -/

theorem ReachesByte.unique {p : AddrPolicy} {a j k : Nat} (hj : ReachesByte p a j) (hk : ReachesByte p a k) :
    j = k :=
  Option.some.inj ((addrOk_of_reaches hj).symm.trans (addrOk_of_reaches hk))

/-- The fetch reads one triple of bytes. -/
theorem FetchesBytes.unique {s : State} {ir opA opB ir' opA' opB' : Byte} (h : FetchesBytes s ir opA opB)
    (h' : FetchesBytes s ir' opA' opB') : ir = ir' ∧ opA = opA' ∧ opB = opB' := by
  obtain ⟨a0, a1, a2, h0, h1, h2, rfl, rfl, rfl⟩ := h
  obtain ⟨b0, b1, b2, g0, g1, g2, rfl, rfl, rfl⟩ := h'
  rw [h0.unique g0, h1.unique g1, h2.unique g2]
  exact ⟨rfl, rfl, rfl⟩

/-- The lowest of the three fetch addresses that fails its check, for a `pc` whose fetch fails. -/
def lowestFailing (pc : Cursor) : Nat := if 256 ≤ pc.toNat then pc.toNat else 256

/-- Everything the three address checks can do. -/
theorem fetchAddrs_cases (p : AddrPolicy) (pc : Cursor) :
    (∃ a0 a1 a2, ReachesByte p pc.toNat a0 ∧ ReachesByte p (pc.toNat + 1) a1 ∧ ReachesByte p (pc.toNat + 2) a2
        ∧ fetchAddrs p pc.toNat = .ok (a0, a1, a2))
      ∨ (p = .fault ∧ 254 ≤ pc.toNat ∧ fetchAddrs p pc.toNat = .error (lowestFailing pc)) := by
  unfold fetchAddrs lowestFailing
  rcases reaches_or_none p pc.toNat with ⟨a0, h0⟩ | h0
  · rcases reaches_or_none p (pc.toNat + 1) with ⟨a1, h1⟩ | h1
    · rcases reaches_or_none p (pc.toNat + 2) with ⟨a2, h2⟩ | h2
      · exact .inl ⟨a0, a1, a2, h0, h1, h2, by
          rw [addrOk_of_reaches h0, addrOk_of_reaches h1, addrOk_of_reaches h2]⟩
      · rw [addrOk_of_reaches h0, addrOk_of_reaches h1, addrOk_of_none h2]
        obtain ⟨hge, rfl⟩ := h2
        have h1' : pc.toNat + 1 ≤ 255 := by
          rcases h1 with h | h
          · exact h.1
          · cases h.2.1
        exact .inr ⟨rfl, by omega, by rw [if_neg (by omega), show pc.toNat + 2 = 256 by omega]⟩
    · rw [addrOk_of_reaches h0, addrOk_of_none h1]
      obtain ⟨hge, rfl⟩ := h1
      have h0' : pc.toNat ≤ 255 := by
        rcases h0 with h | h
        · exact h.1
        · cases h.2.1
      exact .inr ⟨rfl, by omega, by
        rw [if_neg (by omega), show pc.toNat + 1 = 256 by omega]⟩
  · rw [addrOk_of_none h0]
    obtain ⟨hge, rfl⟩ := h0
    exact .inr ⟨rfl, by omega, by
      rw [if_pos hge]⟩

/-- A fetch under `fault` at 254 or above reads no bytes. -/
theorem no_fetch {s : State} (hp : s.cfg.addrPolicy = .fault) (hpc : 254 ≤ s.pc.toNat) {ir opA opB : Byte} :
    ¬ FetchesBytes s ir opA opB := by
  rintro ⟨a0, a1, a2, -, -, h2, -⟩
  rcases h2 with h | h
  · omega
  · rw [hp] at h; cases h.2.1

/-- The pc a successful fetch leaves is the advanced pc of R64. -/
theorem advanced_latch {s : State} {ir opA opB : Byte} (h : FetchesBytes s ir opA opB) :
    AdvancedPc s ir (s.latch ir opA opB).pc := by
  obtain ⟨a0, a1, a2, -, -, h2, -⟩ := h
  have hn := operandField_le ir
  have he : operandField ir = ir.toNat / 64 := by
    simp [operandField, BitVec.toNat_ushiftRight, Nat.shiftRight_eq_div_pow]
  constructor
  · intro hp
    have : s.pc.toNat + 2 ≤ 255 := by
      rcases h2 with h | h
      · exact h.1
      · rw [hp] at h; cases h.2.1
    simp only [State.pc_latch, advance, hp, BitVec.toNat_ofNat]
    omega
  · intro hp
    simp only [State.pc_latch, advance, hp, BitVec.toNat_ofNat]
    omega

/-- Everything the front of a step can do: a fetch fault that writes nothing, an illegal opcode after the latch, or an
instruction whose body runs on the latched state. -/
theorem front_cases (s : State) :
    (s.cfg.addrPolicy = .fault ∧ 254 ≤ s.pc.toNat
        ∧ front s = .ends (s.raise (.addressOutOfRange (lowestFailing s.pc) s.pc)))
      ∨ ∃ ir opA opB, FetchesBytes s ir opA opB
        ∧ (((∀ k, s.cfg.opcodes.byteOf k ≠ ir)
              ∧ front s = .ends ((s.latch ir opA opB).raise (.decodeError ir s.pc)))
            ∨ ∃ i, decode s.cfg.opcodes ir opA opB = .ok i ∧ front s = .runs i (s.latch ir opA opB)) := by
  rcases fetchAddrs_cases s.cfg.addrPolicy s.pc with ⟨a0, a1, a2, h0, h1, h2, he⟩ | ⟨hp, hpc, he⟩
  · refine .inr ⟨_, _, _, ⟨a0, a1, a2, h0, h1, h2, rfl, rfl, rfl⟩, ?_⟩
    rcases decode_cases s.cfg.opcodes (s.mem.read a0) (s.mem.read a1) (s.mem.read a2) with
      ⟨k, -, -, hd⟩ | ⟨hk, hd⟩
    · exact .inr ⟨_, hd, by simp [front, he, hd]⟩
    · exact .inl ⟨hk, by simp [front, he, hd]⟩
  · exact .inl ⟨hp, hpc, by simp [front, he]⟩

/-! ### The step -/

/-- Everything a step that answers a next state can do. -/
theorem step_cases {s t : State} (h : step s = .next t) :
    s.status = .running
      ∧ ((s.cfg.addrPolicy = .fault ∧ 254 ≤ s.pc.toNat
            ∧ t = s.raise (.addressOutOfRange (lowestFailing s.pc) s.pc))
          ∨ ∃ ir opA opB, FetchesBytes s ir opA opB
            ∧ (((∀ k, s.cfg.opcodes.byteOf k ≠ ir)
                  ∧ t = (s.latch ir opA opB).raise (.decodeError ir s.pc))
                ∨ ∃ i, decode s.cfg.opcodes ir opA opB = .ok i ∧ exec i (s.latch ir opA opB) = .next t)) := by
  unfold step at h
  cases hs : s.status with
  | halted => simp [hs, Status.stopReason] at h
  | faulted f => simp [hs, Status.stopReason] at h
  | running =>
    refine ⟨rfl, ?_⟩
    simp only [hs, Status.stopReason] at h
    rcases front_cases s with ⟨hp, hpc, hf⟩ | ⟨ir, opA, opB, hb, ⟨hk, hf⟩ | ⟨i, hd, hf⟩⟩
    · simp only [hf] at h; cases h; exact .inl ⟨hp, hpc, rfl⟩
    · simp only [hf] at h; cases h; exact .inr ⟨ir, opA, opB, hb, .inl ⟨hk, rfl⟩⟩
    · simp only [hf] at h; exact .inr ⟨ir, opA, opB, hb, .inr ⟨i, hd, h⟩⟩

/-- A running step whose front runs an instruction is that instruction's body. -/
theorem step_runs {s : State} {i : Instr} {u : State} (hs : s.status = .running) (hf : front s = .runs i u) :
    step s = exec i u := by
  simp [step, hs, Status.stopReason, hf]

/-- A running step whose front ends the run answers that state. -/
theorem step_ends {s u : State} (hs : s.status = .running) (hf : front s = .ends u) : step s = .next u := by
  simp [step, hs, Status.stopReason, hf]

end Sys2Proof.Machine
end

