-- ==== Sys2Proof/Tests/Slice0.lean ====
section
/-! SUPPORT. Tests whose expected results come from spec/95_test_vectors.md and from words written out from
spec/30_encoding.md, and a witness for the hypotheses of every statement. -/

namespace Sys2Proof.Tests

open Sys2Proof.Machine

/-! ### Helpers: small states -/

/-- The next state, if there is one. -/
def nextOf : Result → Option State
  | .next t => some t
  | .fault _ => none
  | .refused _ => none

/-- Why there is no next state, if there is none. -/
def faultOf : Result → Option Fault
  | .next _ => none
  | .fault r => some r
  | .refused _ => none

/-- The machine right after the load of an image under the default parameters. -/
def loaded (image : List Byte) : State := State.reset.boot image

/-- One step after the load of an image under the default parameters. -/
def ran (image : List Byte) : Option State := nextOf (step (loaded image))

/-- The default parameters with another address policy, register policy, modulus or call mode. -/
def wrapping : Config := { Config.default with addrPolicy := .wrap8 }
def masking : Config := { Config.default with regIndexPolicy := .mask3 }
def modulo257 : Config := { Config.default with spWrap := .at257 }
def observing : Config := { Config.default with callRetMode := .observed }

/-! ### Well-formedness: an ill-formed term for each check -/

theorem test_register_operand_a_checked : (Instr.ldi 8 0).wellFormed .fault = false := by decide

theorem test_register_operand_b_checked : (Instr.add 0 8).wellFormed .fault = false := by decide

theorem test_immediate_and_mask3_not_checked :
    (Instr.ldi 7 255).wellFormed .fault = true ∧ (Instr.add 255 8).wellFormed .mask3 = true := by decide

theorem test_default_map_well_formed : OpcodeMap.ls8.wellFormed = true := by decide

theorem test_map_count_checked : { OpcodeMap.ls8 with ldi := 0x42 }.wellFormed = false := by decide

theorem test_map_zero_checked : { OpcodeMap.ls8 with hlt := 0x00 }.wellFormed = false := by decide

theorem test_map_distinct_checked : { OpcodeMap.ls8 with mul := 0xA0 }.wellFormed = false := by decide

/-! ### Decoding: the opcode_table.json encoding of each row, written out -/

theorem test_decode_hlt : decodeTableWord 8 0b00000001 = some .hlt := by decide

theorem test_decode_ldi : decodeTableWord 24 0b00001000_00000111_10000010 = some (.ldi 7 8) := by decide

theorem test_decode_prn : decodeTableWord 16 0b00000101_01000111 = some (.prn 5) := by decide

theorem test_decode_add : decodeTableWord 24 0b00000010_00000001_10100000 = some (.add 1 2) := by decide

theorem test_decode_mul : decodeTableWord 24 0b00000001_00000010_10100010 = some (.mul 2 1) := by decide

theorem test_decode_cmp : decodeTableWord 24 0b00000000_00000111_10100111 = some (.cmp 7 0) := by decide

theorem test_decode_push : decodeTableWord 16 0b00000110_01000101 = some (.push 6) := by decide

theorem test_decode_pop : decodeTableWord 16 0b11111111_01000110 = some (.pop 255) := by decide

theorem test_decode_call : decodeTableWord 16 0b00000100_01010000 = some (.call 4) := by decide

theorem test_decode_ret : decodeTableWord 8 0b00010001 = some .ret := by decide

theorem test_decode_jmp : decodeTableWord 16 0b00000011_01010100 = some (.jmp 3) := by decide

theorem test_decode_jeq : decodeTableWord 16 0b00000010_01010101 = some (.jeq 2) := by decide

theorem test_decode_jne : decodeTableWord 16 0b00000001_01010110 = some (.jne 1) := by decide

/-- T-DEC: bytes of other LS-8 instructions, and of operand count 3. -/
theorem test_decode_illegal :
    [0x00, 0x02, 0x13, 0x48, 0x65, 0x83, 0xA1, 0xA8, 0xC0, 0xFF].all (fun w => (decodeTableWord 8 w).isNone) = true := by
  decide

/-- The words of the table placed at the reset pc are what the first step runs. -/
theorem test_fetch_word_runs_first :
    (nextOf (step (State.reset.withFetchWord 24 0x080082))).map (fun t => (t.x 0, t.ir, t.pc)) = some (8, 0x82, 3)
      ∧ (nextOf (step (State.reset.withFetchWord 8 0x01))).map (fun t => (t.status, t.pc)) = some (.halted, 1) := by
  decide

/-! ### Instructions: at most two each, one step on a small state -/

/-- T-ADD: 255 + 1. -/
theorem test_add_wraps :
    (nextOf (step ((((loaded [0xA0, 0x00, 0x01]).setX 0 255).setX 1 1).setFl 4))).map
      (fun t => (t.x 0, t.x 1, t.fl, t.pc)) = some (0, 1, 4, 3) := by decide

/-- T-ADD: `ADD R7, R7` from reset. -/
theorem test_add_same_register :
    (ran [0xA0, 0x07, 0x07]).map (fun t => (t.x 7, t.sp)) = some (254, 255) := by decide

/-- T-MUL: 254 * 2. -/
theorem test_mul_keeps_low_byte :
    (nextOf (step (((loaded [0xA2, 0x00, 0x01]).setX 0 254).setX 1 2))).map (fun t => (t.x 0, t.x 1))
      = some (252, 2) := by decide

/-- T-MUL: 15 * 15 with `a = b`. -/
theorem test_mul_same_register :
    (nextOf (step ((loaded [0xA2, 0x00, 0x00]).setX 0 15))).map (fun t => (t.x 0, t.fl)) = some (225, 0) := by decide

/-- T-CMP: 0 against 255 is unsigned. -/
theorem test_cmp_unsigned :
    (nextOf (step ((loaded [0xA7, 0x00, 0x01]).setX 1 255))).map (fun t => (t.fl, t.x 0, t.x 1))
      = some (4, 0, 255) := by decide

/-- T-CMP: 9 against 3 with E set before. -/
theorem test_cmp_clears_old_flag :
    (nextOf (step ((((loaded [0xA7, 0x00, 0x01]).setX 0 9).setX 1 3).setFl 1))).map (fun t => t.fl) = some 2 := by
  decide

/-- T-DEC: `01 99 FF`, junk in both operand bytes. -/
theorem test_hlt_ignores_operands :
    (ran [0x01, 0x99, 0xFF]).map (fun t => (t.status, t.pc, t.ir, t.opA, t.opB))
      = some (.halted, 1, 0x01, 0x99, 0xFF) := by decide

/-- T-FETCH: HLT at 253 runs, at 254 the fetch faults. -/
theorem test_hlt_at_the_top :
    (nextOf (step { loaded (List.replicate 253 0 ++ [1]) with pc := 253 })).map (fun t => (t.status, t.pc))
        = some (.halted, 254)
      ∧ (nextOf (step { loaded (List.replicate 254 0 ++ [1]) with pc := 254 })).map (fun t => (t.status, t.pc, t.ir))
        = some (.faulted (.addressOutOfRange 256 254), 254, 0) := by decide +kernel

/-- T-LIO: `82 07 0A`. -/
theorem test_ldi_seven_is_not_sp :
    (ran [0x82, 0x07, 0x0A]).map (fun t => (t.x 7, t.sp, t.pc)) = some (10, 255, 3) := by decide

/-- T-REG: `82 08 05` under both policies. -/
theorem test_ldi_bad_register :
    (ran [0x82, 0x08, 0x05]).map (fun t => (t.status, t.pc, t.x 0))
        = some (.faulted (.badRegister 8 0), 3, 0)
      ∧ (nextOf (step ((State.resetWith masking).boot [0x82, 0x08, 0x05]))).map (fun t => (t.status, t.x 0))
        = some (.running, 5) := by decide

/-- T-LIO: `47 07`. -/
theorem test_prn_unsigned : (ran [0x47, 0x07, 0x01]).map (fun t => (t.out, t.pc)) = some ([255], 2) := by decide

/-- V4: the digits of the host line. -/
theorem test_prn_digits : Nat.toDigits 10 (255 : Byte).toNat = ['2', '5', '5'] := by decide

/-- T-STK: PUSH with `sp = 0`. -/
theorem test_push_wraps :
    (nextOf (step (((loaded [0x45, 0x00, 0x01]).setX 0 9).setSp 0))).map
      (fun t => (t.sp, t.mem.read 255, t.pc)) = some (255, 9, 2) := by decide

/-- T-ORD: a PUSH that overwrites its own operand byte. -/
theorem test_push_over_itself :
    (nextOf (step (((loaded [0x45, 0x00, 0xAA]).setX 0 1).setSp 2))).map
      (fun t => (t.sp, t.mem.read 1, t.opA, t.pc)) = some (1, 1, 0, 2) := by decide

/-- T-STK: POP R7 on an empty stack. -/
theorem test_pop_wraps : (ran [0x46, 0x07, 0x01]).map (fun t => (t.x 7, t.sp)) = some (0, 0) := by decide

/-- T-STK: the second POP with SP_WRAP = 257, after the first has left `sp = 256`. -/
theorem test_pop_modulo_257 :
    (nextOf (step ((State.resetWith modulo257).boot [0x46, 0x00]))).map (fun t => (t.x 0, t.sp)) = some (0, 256)
      ∧ (nextOf (step (((State.resetWith modulo257).boot [0x46, 0x01]).setSp 256))).map
          (fun t => (t.status, t.x 1, t.sp, t.pc)) = some (.faulted (.addressOutOfRange 256 0), 0, 256, 2) := by decide

/-- T-CTL: `50 01` at 3, table mode. -/
theorem test_call_table :
    (nextOf (step { (loaded [0, 0, 0, 0x50, 0x01]).setX 1 8 with pc := 3 })).map
      (fun t => (t.sp, t.mem.read 254, t.pc)) = some (254, 5, 8) := by decide

/-- T-CTL: `50 01` at 3, observed mode. -/
theorem test_call_observed :
    (nextOf (step { ((State.resetWith observing).boot [0, 0, 0, 0x50, 0x01]).setX 1 8 with pc := 3 })).map
      (fun t => (t.sp, t.mem.read 254, t.pc)) = some (254, 5, 5) := by decide

/-- T-CTL: `11`, table mode. -/
theorem test_ret_table :
    (nextOf (step (((loaded [0x11]).storeByte 254 5).setSp 254))).map (fun t => (t.pc, t.sp)) = some (5, 255) := by
  decide

/-- T-CTL: `11`, observed mode. -/
theorem test_ret_observed :
    (nextOf (step ((((State.resetWith observing).boot [0x11]).storeByte 254 5).setSp 254))).map
      (fun t => (t.pc, t.sp)) = some (5, 254) := by decide

/-- T-CTL: `54 03`. -/
theorem test_jmp : (nextOf (step ((loaded [0x54, 0x03]).setX 3 12))).map (fun t => t.pc) = some 12 := by decide

/-- T-CTL: `54 00` to 255. -/
theorem test_jmp_top : (nextOf (step ((loaded [0x54, 0x00]).setX 0 255))).map (fun t => (t.pc, t.status))
    = some (255, .running) := by decide

/-- T-CTL: `55 02` with E set. -/
theorem test_jeq_taken :
    (nextOf (step (((loaded [0x55, 0x02]).setX 2 14).setFl 1))).map (fun t => (t.pc, t.fl)) = some (14, 1) := by decide

/-- T-CTL: `55 02` with G set. -/
theorem test_jeq_not_taken :
    (nextOf (step (((loaded [0x55, 0x02]).setX 2 14).setFl 2))).map (fun t => t.pc) = some 2 := by decide

/-- T-CTL: `56 03` with L set. -/
theorem test_jne_taken :
    (nextOf (step (((loaded [0x56, 0x03]).setX 3 12).setFl 4))).map (fun t => t.pc) = some 12 := by decide

/-- T-CTL: `56 03` with E set. -/
theorem test_jne_not_taken :
    (nextOf (step (((loaded [0x56, 0x03]).setX 3 12).setFl 1))).map (fun t => t.pc) = some 2 := by decide

/-! ### The machine -/

/-- T-DEC: `C0` at 10 leaves pc 14. -/
theorem test_illegal_opcode_count_three :
    (nextOf (step { loaded (List.replicate 10 0 ++ [0xC0]) with pc := 10 })).map (fun t => (t.status, t.pc))
      = some (.faulted (.decodeError 0xC0 10), 14) := by decide

/-- T-FETCH: an illegal byte at 254 is an address fault under `fault` and a decode error under `wrap8`. -/
theorem test_fetch_fault_comes_first :
    (nextOf (step { loaded [] with pc := 254 })).map (fun t => (t.status, t.pc))
        = some (.faulted (.addressOutOfRange 256 254), 254)
      ∧ (nextOf (step { State.resetWith wrapping with pc := 254 })).map (fun t => (t.status, t.pc))
        = some (.faulted (.decodeError 0 254), 255) := by decide

/-- T-STK: PUSH with SP_WRAP = 257 and `sp = 0`. -/
theorem test_push_fault_keeps_sp :
    (nextOf (step (((State.resetWith modulo257).boot [0x45, 0x00, 0x01]).setSp 0))).map
      (fun t => (t.status, t.sp, t.pc, t.mem.read 0))
      = some (.faulted (.addressOutOfRange 256 0), 256, 2, 0x45) := by decide

/-- V3: 257 bytes, and 256 bytes. -/
theorem test_capacity :
    (loaded (List.replicate 257 1)).status = .faulted (.capacityError 257)
      ∧ (loaded (List.replicate 256 1)).status = .running := by decide +kernel

/-- R116: the 257th byte sets the fault with code 1, and the 258th leaves it. -/
theorem test_load_port_overflow :
    ((List.replicate 256 1).foldl LoadPort.offer State.reset.openLoad).core.status.ports.fault = false
      ∧ ((List.replicate 257 1).foldl LoadPort.offer State.reset.openLoad).core.status.ports = ⟨false, true, 1⟩
      ∧ ((List.replicate 258 1).foldl LoadPort.offer State.reset.openLoad).core.status.ports = ⟨false, true, 1⟩ := by
  decide +kernel

/-- V2 and T-REG: the exit status of a decode error and of a bad register, 60_exceptions.md R94. -/
theorem test_exit_status :
    (ran []).map (fun t => t.status.exitStatus) = some (some 2)
      ∧ (ran [0x82, 0x08, 0x05]).map (fun t => t.status.exitStatus) = some (some 5)
      ∧ (nextOf (step { State.reset with pc := 254 })).map (fun t => t.status.exitStatus) = some (some 4) := by decide

/-- R74: the selector the decoder never drives. -/
theorem test_alu_selector_three :
    (nextOf (alu State.reset 0b11 0 1)).map (fun t => (t.status, t.x 0))
      = some (.faulted (.unsupportedAluOp 0b11 0), 0) := by decide

/-- R120: POP takes five cycles and LDI four. -/
theorem test_reference_cycles :
    (List.range 6).map (fun k => (Sequencer.cycles k (Sequencer.start (loaded [0x46, 0x03]) 0)).phase == .f0)
        = [true, false, false, false, false, true]
      ∧ (List.range 5).map (fun k => (Sequencer.cycles k (Sequencer.start (loaded [0x82, 0x03, 0x09]) 0)).phase == .f0)
        = [true, false, false, false, true] := by decide

/-- A write of the value an unlisted byte reads as removes the entry. -/
theorem test_memory_canonical : ((Memory.write [] 3 7).write 3 0) = [] := by decide

/-! ### Witnesses: the hypotheses of each statement can be met, at the ends of their ranges -/

theorem names_zero : NamesReg .fault 0 0 := .inl (by decide)
theorem names_seven : NamesReg .fault 7 7 := .inl (by decide)
theorem names_eight_masked : NamesReg .mask3 8 0 := .inr (by decide)
theorem names_top_masked : NamesReg .mask3 255 7 := .inr (by decide)
theorem none_eight : NamesNone .fault 8 := by unfold NamesNone; decide
theorem none_top : NamesNone .fault 255 := by unfold NamesNone; decide

/-- Below 254 every policy reads the three bytes at `pc`. -/
theorem fetchesBytes_low {s : State} (h : s.pc.toNat ≤ 253) :
    FetchesBytes s (s.mem.read s.pc.toNat) (s.mem.read (s.pc.toNat + 1)) (s.mem.read (s.pc.toNat + 2)) :=
  ⟨_, _, _, .inl ⟨by omega, rfl⟩, .inl ⟨by omega, rfl⟩, .inl ⟨by omega, rfl⟩, rfl, rfl, rfl⟩

/-- At 254 the policy `wrap8` reads the third byte at 0. -/
theorem fetchesBytes_wrapped {s : State} (hp : s.cfg.addrPolicy = .wrap8) (h : s.pc.toNat = 254) :
    FetchesBytes s (s.mem.read 254) (s.mem.read 255) (s.mem.read 0) :=
  ⟨_, _, _, .inl ⟨by omega, h.symm⟩, .inl ⟨by omega, by omega⟩, .inr ⟨by omega, hp, by omega⟩, rfl, rfl, rfl⟩

theorem fetches_low {s : State} {i : Instr} (h : s.pc.toNat ≤ 253)
    (hd : decode s.cfg.opcodes (s.mem.read s.pc.toNat) (s.mem.read (s.pc.toNat + 1)) (s.mem.read (s.pc.toNat + 2))
      = .ok i) : Fetches s i :=
  ⟨_, _, _, fetchesBytes_low h, hd⟩

/-- An answer whose next state passes a check is a next state, and it passes. -/
theorem next_of {r : Result} {p : State → Bool} (h : (nextOf r).any p = true) : ∃ t, r = .next t ∧ p t = true := by
  cases r with
  | next t => exact ⟨t, rfl, h⟩
  | fault f => cases h
  | refused f => cases h

theorem witness_DecodeOfEncodeIsTheInstruction :
    OpcodeMap.ls8.wellFormed = true
      ∧ encode OpcodeMap.ls8 .hlt ++ [0x99, 0xFF, 0x01] = 0x01 :: 0x99 :: 0xFF :: [0x01]
      ∧ encode OpcodeMap.ls8 (.ldi 0 8) ++ [] = 0x82 :: 0x00 :: 0x08 :: [] := by decide

theorem witness_EncodeOfDecodedIsTheBytes :
    decode OpcodeMap.ls8 0x82 0x00 0x08 = .ok (.ldi 0 8) ∧ OpcodeMap.ls8.wellFormed = true := ⟨rfl, by decide⟩

theorem witness_DecoderReadsOnlyTheOpcodeByte :
    OpcodeMap.ls8.wellFormed = true ∧ ∀ k, (0xA1 : Byte) ≠ OpcodeMap.ls8.byteOf k :=
  ⟨by decide, fun k => by cases k <;> decide⟩

theorem witness_CountThreeAndZeroAreIllegal :
    OpcodeMap.ls8.wellFormed = true ∧ 3 ≤ (0xC0 : Byte).toNat / 64 ∧ 3 ≤ (0xFF : Byte).toNat / 64 := by decide

theorem witness_StepRunsTheDecodedInstruction :
    ((loaded [0x82, 0x00, 0x08]).status = .running
        ∧ FetchesBytes (loaded [0x82, 0x00, 0x08]) 0x82 0x00 0x08
        ∧ decode (loaded [0x82, 0x00, 0x08]).cfg.opcodes 0x82 0x00 0x08 = .ok (.ldi 0 8))
      ∧ ({ State.resetWith wrapping with pc := 254, mem := [(0, 3), (254, 0x82)] } : State).status = .running
      ∧ FetchesBytes { State.resetWith wrapping with pc := 254, mem := [(0, 3), (254, 0x82)] } 0x82 0x00 0x03 :=
  ⟨⟨rfl, fetchesBytes_low (by decide), rfl⟩, rfl, fetchesBytes_wrapped rfl rfl⟩

theorem witness_IllegalOpcodeEndsTheRun :
    (loaded []).status = .running ∧ FetchesBytes (loaded []) 0 0 0
      ∧ ∀ k, (0 : Byte) ≠ (loaded []).cfg.opcodes.byteOf k :=
  ⟨rfl, fetchesBytes_low (by decide), fun k => by cases k <;> decide⟩

theorem witness_FetchAtTheTopFaultsAndWritesNothing :
    (State.reset.status = .running ∧ State.reset.cfg.addrPolicy = .fault)
      ∧ 254 ≤ ({ State.reset with pc := 254 } : State).pc.toNat
      ∧ 254 ≤ ({ State.reset with pc := 256 } : State).pc.toNat
      ∧ ({ State.reset with pc := 253 } : State).pc.toNat < 254
      ∧ (State.resetWith wrapping).cfg.addrPolicy = .wrap8 := by decide

theorem witness_StepExactlyWhileRunning :
    State.reset.status = .running ∧ State.reset.halt.status = .halted
      ∧ (State.reset.raise (.capacityError 257)).status = .faulted (.capacityError 257) := ⟨rfl, rfl, rfl⟩

/-- Two states that differ in the latches and the output. -/
theorem witness_StepIgnoresTheOldLatches :
    let s := loaded [0x47, 0x07]
    let s' := { s with ir := 9, opA := 9, opB := 9, out := [1], pc0 := 3 }
    s ≠ s' ∧ s.status = .running ∧ s'.status = .running ∧ s'.pc = s.pc ∧ s'.mem = s.mem ∧ s'.regs = s.regs
      ∧ s'.sp = s.sp ∧ s'.fl = s.fl ∧ s'.cfg = s.cfg ∧ ∃ ir opA opB, FetchesBytes s ir opA opB :=
  ⟨by decide, rfl, rfl, rfl, rfl, rfl, rfl, rfl, rfl, _, _, _, fetchesBytes_low (by decide)⟩

theorem witness_AddSumsModulo256 :
    (NamesReg State.reset.cfg.regIndexPolicy 7 7 ∧ NamesReg State.reset.cfg.regIndexPolicy 0 0)
      ∧ (NamesReg (State.resetWith masking).cfg.regIndexPolicy 8 0
        ∧ NamesReg (State.resetWith masking).cfg.regIndexPolicy 255 7)
      ∧ NamesNone State.reset.cfg.regIndexPolicy 8
      ∧ (NamesReg State.reset.cfg.regIndexPolicy 7 7 ∧ NamesNone State.reset.cfg.regIndexPolicy 255) :=
  ⟨⟨names_seven, names_zero⟩, ⟨names_eight_masked, names_top_masked⟩, none_eight, names_seven, none_top⟩

theorem witness_MulKeepsTheLowByte :
    (NamesReg State.reset.cfg.regIndexPolicy 7 7 ∧ NamesReg State.reset.cfg.regIndexPolicy 0 0)
      ∧ (NamesReg (State.resetWith masking).cfg.regIndexPolicy 8 0
        ∧ NamesReg (State.resetWith masking).cfg.regIndexPolicy 255 7)
      ∧ NamesNone State.reset.cfg.regIndexPolicy 8
      ∧ (NamesReg State.reset.cfg.regIndexPolicy 7 7 ∧ NamesNone State.reset.cfg.regIndexPolicy 255) :=
  ⟨⟨names_seven, names_zero⟩, ⟨names_eight_masked, names_top_masked⟩, none_eight, names_seven, none_top⟩

theorem witness_CmpSetsExactlyOneFlag :
    (NamesReg State.reset.cfg.regIndexPolicy 7 7 ∧ NamesReg State.reset.cfg.regIndexPolicy 0 0)
      ∧ (NamesReg (State.resetWith masking).cfg.regIndexPolicy 8 0
        ∧ NamesReg (State.resetWith masking).cfg.regIndexPolicy 255 7)
      ∧ NamesNone State.reset.cfg.regIndexPolicy 8
      ∧ (NamesReg State.reset.cfg.regIndexPolicy 7 7 ∧ NamesNone State.reset.cfg.regIndexPolicy 255) :=
  ⟨⟨names_seven, names_zero⟩, ⟨names_eight_masked, names_top_masked⟩, none_eight, names_seven, none_top⟩

theorem witness_CmpSetsExactlyOneFlag_each_case :
    (State.reset.x 0).toNat = (State.reset.x 6).toNat ∧ (State.reset.x 0).toNat < (State.reset.x 7).toNat := by decide

theorem witness_AluRaisesOnlyOnSelectorThree : (0b11 : BitVec 2) = 0b11 ∧ (0b10 : BitVec 2) ≠ 0b11 := by decide

theorem witness_NoStepRaisesAluOrCapacityError : ∃ t, step (loaded [0xA0, 0x00, 0x01]) = .next t :=
  (next_of (p := fun _ => true) (by decide)).imp fun _ h => h.1

theorem witness_HltEndsTheRun :
    (({ State.reset with pc := 253, mem := [(253, 1)] } : State).status = .running
        ∧ State.reset.cfg.opcodes.wellFormed = true
        ∧ Fetches { State.reset with pc := 253, mem := [(253, 1)] } .hlt
        ∧ State.reset.cfg.addrPolicy = .fault)
      ∧ (State.resetWith wrapping).cfg.addrPolicy = .wrap8
      ∧ Fetches { State.resetWith wrapping with pc := 254, mem := [(254, 1)] } .hlt :=
  ⟨⟨rfl, by decide, fetches_low (by decide) rfl, rfl⟩, rfl, _, _, _, fetchesBytes_wrapped rfl rfl, rfl⟩

theorem witness_LdiLoadsTheImmediate :
    NamesReg State.reset.cfg.regIndexPolicy 7 7 ∧ NamesReg (State.resetWith masking).cfg.regIndexPolicy 255 7
      ∧ NamesNone State.reset.cfg.regIndexPolicy 8 :=
  ⟨names_seven, names_top_masked, none_eight⟩

theorem witness_PrnAppendsTheRegister :
    NamesReg State.reset.cfg.regIndexPolicy 7 7 ∧ NamesReg (State.resetWith masking).cfg.regIndexPolicy 255 7
      ∧ NamesNone State.reset.cfg.regIndexPolicy 8 :=
  ⟨names_seven, names_top_masked, none_eight⟩

theorem witness_PushStoresBelowTheStackPointer :
    (NamesReg State.reset.cfg.regIndexPolicy 7 7 ∧ State.reset.mem.wf
        ∧ addrOk State.reset.cfg.addrPolicy (spDec State.reset.cfg.spWrap 0).toNat = some 255)
      ∧ NamesNone State.reset.cfg.regIndexPolicy 8
      ∧ addrOk (State.resetWith modulo257).cfg.addrPolicy (spDec (State.resetWith modulo257).cfg.spWrap 0).toNat = none :=
  ⟨⟨names_seven, by decide⟩, none_eight, by decide⟩

theorem witness_PopLoadsAtTheStackPointer :
    (NamesReg State.reset.cfg.regIndexPolicy 7 7
        ∧ addrOk State.reset.cfg.addrPolicy State.reset.sp.toNat = some 255)
      ∧ NamesNone State.reset.cfg.regIndexPolicy 8
      ∧ addrOk State.reset.cfg.addrPolicy (State.reset.setSp 256).sp.toNat = none
      ∧ ((State.resetWith modulo257).setSp 256).sp.toNat < (State.resetWith modulo257).cfg.spWrap.modulus :=
  ⟨⟨names_seven, by decide⟩, none_eight, by decide⟩

theorem witness_PushThenPopBalances :
    (State.reset.setSp 0).cfg.spWrap = .at256 ∧ (State.reset.setSp 0).sp.toNat < 256 ∧ (State.reset.setSp 0).mem.wf
      ∧ NamesReg (State.reset.setSp 0).cfg.regIndexPolicy 7 7 ∧ NamesReg (State.reset.setSp 0).cfg.regIndexPolicy 0 0 :=
  ⟨rfl, by decide, by decide, names_seven, names_zero⟩

theorem witness_CallPushesAndTransfers :
    (NamesReg State.reset.cfg.regIndexPolicy 7 7 ∧ State.reset.mem.wf
        ∧ addrOk State.reset.cfg.addrPolicy (spDec State.reset.cfg.spWrap 0).toNat = some 255)
      ∧ NamesNone State.reset.cfg.regIndexPolicy 8
      ∧ addrOk (State.resetWith modulo257).cfg.addrPolicy (spDec (State.resetWith modulo257).cfg.spWrap 0).toNat = none :=
  ⟨⟨names_seven, by decide⟩, none_eight, by decide⟩

theorem witness_CallPushesAndTransfers_both_modes :
    State.reset.cfg.callRetMode = .table ∧ (State.resetWith observing).cfg.callRetMode = .observed := ⟨rfl, rfl⟩

theorem witness_CallPushesTheAddressAfterIt :
    let s : State := { State.reset with pc := 253, mem := [(253, 0x50), (254, 7)] }
    s.status = .running ∧ s.cfg.opcodes.wellFormed = true ∧ s.mem.wf ∧ Fetches s (.call 7)
      ∧ NamesReg s.cfg.regIndexPolicy 7 7 ∧ addrOk s.cfg.addrPolicy (spDec s.cfg.spWrap s.sp).toNat = some 254
      ∧ s.cfg.addrPolicy = .fault :=
  ⟨rfl, by decide, by decide, fetches_low (by decide) rfl, names_seven, by decide, rfl⟩

theorem witness_RetLoadsThePc :
    addrOk State.reset.cfg.addrPolicy State.reset.sp.toNat = some 255
      ∧ State.reset.cfg.callRetMode = .table ∧ (State.resetWith observing).cfg.callRetMode = .observed
      ∧ addrOk State.reset.cfg.addrPolicy (State.reset.setSp 256).sp.toNat = none
      ∧ ((State.resetWith modulo257).setSp 256).sp.toNat < (State.resetWith modulo257).cfg.spWrap.modulus := by decide

theorem witness_JmpLoadsThePc :
    NamesReg State.reset.cfg.regIndexPolicy 7 7 ∧ NamesReg (State.resetWith masking).cfg.regIndexPolicy 255 7
      ∧ NamesNone State.reset.cfg.regIndexPolicy 8 :=
  ⟨names_seven, names_top_masked, none_eight⟩

theorem witness_JeqBranchesOnEqual :
    NamesReg State.reset.cfg.regIndexPolicy 7 7 ∧ NamesReg (State.resetWith masking).cfg.regIndexPolicy 255 7
      ∧ NamesNone State.reset.cfg.regIndexPolicy 8 :=
  ⟨names_seven, names_top_masked, none_eight⟩

theorem witness_JneBranchesOnNotEqual :
    NamesReg State.reset.cfg.regIndexPolicy 7 7 ∧ NamesReg (State.resetWith masking).cfg.regIndexPolicy 255 7
      ∧ NamesNone State.reset.cfg.regIndexPolicy 8 :=
  ⟨names_seven, names_top_masked, none_eight⟩

theorem witness_branches_both_ways :
    (State.reset.setFl 1).fl.toNat % 2 = 1 ∧ State.reset.fl.toNat % 2 = 0 ∧ (State.reset.setFl 4).fl.toNat % 2 = 0 := by
  decide

theorem witness_RetUndoesCall :
    let s := (loaded [0x50, 0x07]).latch 0x50 7 0
    s.cfg.callRetMode = .table ∧ s.cfg.spWrap = .at256 ∧ s.sp.toNat < 256 ∧ s.pc.toNat < 256 ∧ s.mem.wf
      ∧ NamesReg s.cfg.regIndexPolicy 7 7 :=
  ⟨rfl, rfl, by decide, by decide, by decide, names_seven⟩

theorem witness_OnlyCmpWritesAndOnlyBranchesReadFlags :
    (∃ t, step (loaded [0xA7, 0x00, 0x07]) = .next t ∧ (t.fl != (loaded [0xA7, 0x00, 0x07]).fl) = true)
      ∧ (Instr.add 0 7).mnemonic ≠ .jeq ∧ (Instr.add 0 7).mnemonic ≠ .jne
      ∧ ∃ t, exec (.add 0 7) State.reset = .next t :=
  ⟨next_of (by decide), by decide, by decide, (next_of (p := fun _ => true) (by decide)).imp fun _ h => h.1⟩

theorem witness_OnlyStackInstructionsMoveSp :
    ∃ t, step (loaded [0x11]) = .next t ∧ (t.sp != (loaded [0x11]).sp) = true := next_of (by decide)

theorem witness_OnlyPushAndCallStore :
    ∃ t, step (loaded [0x45, 0x07]) = .next t ∧ (t.mem.read 254 != (loaded [0x45, 0x07]).mem.read 254) = true :=
  next_of (by decide)

theorem witness_StackInstructionsIgnoreRegisterSeven :
    (Instr.push 6).mnemonic = .push
      ∧ (∀ a ∈ (Instr.push 6).regOperands, ¬ NamesReg State.reset.cfg.regIndexPolicy a 7)
      ∧ ∃ t, exec (.push 6) State.reset = .next t :=
  ⟨rfl, by unfold NamesReg; decide, (next_of (p := fun _ => true) (by decide)).imp fun _ h => h.1⟩

theorem witness_OnlyPrnWritesTheOutput :
    ∃ t, step (loaded [0x47, 0x07]) = .next t ∧ (t.out == [255]) = true := next_of (by decide)

theorem witness_NoStepChangesTheParameters : ∃ t, step ((State.resetWith masking).boot [0x01]) = .next t :=
  (next_of (p := fun _ => true) (by decide)).imp fun _ h => h.1

/-- A fetch fault, a decode error, a bad register and a stack fault. -/
theorem witness_FaultsArePrecise :
    (∃ t, step { State.reset with pc := 254 } = .next t
        ∧ (t.status == .faulted (.addressOutOfRange 256 254)) = true)
      ∧ (∃ t, step (loaded []) = .next t ∧ (t.status == .faulted (.decodeError 0 0)) = true)
      ∧ (∃ t, step (loaded [0x47, 0x08]) = .next t ∧ (t.status == .faulted (.badRegister 8 0)) = true)
      ∧ (∃ t, step (((State.resetWith modulo257).boot [0x45, 0x00]).setSp 0) = .next t
        ∧ (t.status == .faulted (.addressOutOfRange 256 0)) = true)
      ∧ (¬ ∃ ir opA opB, FetchesBytes { State.reset with pc := 254 } ir opA opB)
      ∧ ∃ ir opA opB, FetchesBytes (loaded []) ir opA opB :=
  ⟨next_of (by decide), next_of (by decide), next_of (by decide), next_of (by decide),
    fun ⟨_, _, _, h⟩ => no_fetch rfl (by decide) h, _, _, _, fetchesBytes_low (by decide)⟩

theorem witness_OnlyHltHalts :
    ∃ t, step (loaded [0x01]) = .next t ∧ (t.status == .halted) = true := next_of (by decide)

/-- The advance to 256, and the fetch fault that leaves it. -/
theorem witness_OnlyTheAdvanceSetsThePcCarry :
    (∃ t, step { State.reset with pc := 253, mem := [(253, 0x82), (255, 7)] } = .next t
        ∧ (256 ≤ t.pc.toNat : Bool) = true)
      ∧ ∃ t, step { State.reset with pc := 256 } = .next t ∧ (256 ≤ t.pc.toNat : Bool) = true :=
  ⟨next_of (by decide), next_of (by decide)⟩

theorem inv_loaded_call : Inv (loaded [0x50, 0x07]) :=
  ⟨by decide, .inl rfl, by decide, by decide⟩

theorem witness_StepKeepsTheInvariant :
    Inv (loaded [0x50, 0x07]) ∧ ∃ t, step (loaded [0x50, 0x07]) = .next t :=
  ⟨inv_loaded_call, (next_of (p := fun _ => true) (by decide)).imp fun _ h => h.1⟩

theorem witness_BootLeavesTheResetValues : (List.replicate 256 (0x01 : Byte)).length ≤ 256 :=
  List.length_replicate.le

theorem witness_OverlongImageNeverRuns : 256 < (List.replicate 257 (0x01 : Byte)).length := by
  rw [List.length_replicate]; decide

theorem witness_LoadPortLoadsTheImage :
    (List.replicate 256 (0x01 : Byte)).length ≤ 256 ∧ 256 < (List.replicate 257 (0x01 : Byte)).length :=
  ⟨witness_BootLeavesTheResetValues, witness_OverlongImageNeverRuns⟩

theorem witness_ExitStatusTellsTheEnd :
    (State.reset.raise (.decodeError 0 0)).status = .faulted (.decodeError 0 0) := rfl

/-- POP, which takes five cycles. -/
theorem witness_SequencerRefinesTheStep :
    (∃ t, step (loaded [0x46, 0x07]) = .next t ∧ (t.status == .running) = true)
      ∧ Fetches (loaded [0x46, 0x07]) (.pop 7) :=
  ⟨next_of (by decide), fetches_low (by decide) rfl⟩

theorem witness_SequencerRefinesTheStep_safe {t : State} (h : (t.status == .running) = true) : Safe t :=
  fun f hf => by rw [hf] at h; cases h

theorem witness_OutPortFiresOncePerPrn :
    (loaded [0x47, 0x07]).status = .running ∧ Fetches (loaded [0x47, 0x07]) (.prn 7)
      ∧ NamesReg (loaded [0x47, 0x07]).cfg.regIndexPolicy 7 7 :=
  ⟨rfl, fetches_low (by decide) rfl, names_seven⟩

theorem witness_HostLineIsDecimal_zero : (Nat.toDigits 10 (0 : Byte).toNat).head? = some '0' := by decide

end Sys2Proof.Tests
end

/-! SUPPORT. What the body of an instruction can do, said once (spec/40_fetch_decode.md R65): `Effect s i t` lists every
way a body can end, and `exec_iff_effect` ties the list to `exec`. Rules about the whole machine go by its cases. -/

namespace Sys2Proof.Machine

/-! ### Stack accesses that reach a byte, and those that reach none -/

theorem memRead_reaches {s : State} {a b : Nat} (h : ReachesByte s.cfg.addrPolicy a b) (k : Byte → Result) :
    memRead s a k = k (s.mem.read b) := by
  simp [memRead, addrOk_of_reaches h]

theorem memRead_none {s : State} {a : Nat} (h : ReachesNone s.cfg.addrPolicy a) (k : Byte → Result) :
    memRead s a k = .next (s.raise (.addressOutOfRange a s.pc0)) := by
  simp [memRead, addrOk_of_none h]

/-- The state after a push that writes `v` to byte `b`. -/
def State.pushed (s : State) (b : Nat) (v : Byte) : State := (s.setSp (spDec s.cfg.spWrap s.sp)).storeByte b v

/-- The state after a push whose write fails: the new sp stays (60_exceptions.md R102). -/
def State.pushFailed (s : State) : State :=
  (s.setSp (spDec s.cfg.spWrap s.sp)).raise (.addressOutOfRange (spDec s.cfg.spWrap s.sp).toNat s.pc0)

theorem pushByte_reaches {s : State} {b : Nat}
    (h : ReachesByte s.cfg.addrPolicy (spDec s.cfg.spWrap s.sp).toNat b) (v : Byte) (k : State → Result) :
    pushByte s v k = k (s.pushed b v) := by
  simp [pushByte, memWrite, addrOk_of_reaches h, State.pushed]

theorem pushByte_none {s : State} (h : ReachesNone s.cfg.addrPolicy (spDec s.cfg.spWrap s.sp).toNat) (v : Byte)
    (k : State → Result) : pushByte s v k = .next s.pushFailed := by
  simp [pushByte, memWrite, addrOk_of_none h, State.pushFailed]

/-! ### The effects -/

/-- `Effect s i t`: the body of `i`, run on `s`, leaves `t`. Register operands are checked first and in order
(60_exceptions.md R99, R101); the other faults are those of the stack accesses (R100, R102). -/
inductive Effect (s : State) : Instr → State → Prop
  | badFirst {i : Instr} {a : Byte} (hi : i.regOperands.head? = some a) (ha : NamesNone s.cfg.regIndexPolicy a) :
      Effect s i (s.raise (.badRegister a s.pc0))
  | badSecond {i : Instr} {a b : Byte} {ra : Fin 8} (hi : i.regOperands = [a, b])
      (ha : NamesReg s.cfg.regIndexPolicy a ra) (hb : NamesNone s.cfg.regIndexPolicy b) :
      Effect s i (s.raise (.badRegister b s.pc0))
  | hlt : Effect s .hlt s.halt
  | ldi {a imm : Byte} {ra : Fin 8} (ha : NamesReg s.cfg.regIndexPolicy a ra) :
      Effect s (.ldi a imm) (s.setX ra imm)
  | prn {a : Byte} {ra : Fin 8} (ha : NamesReg s.cfg.regIndexPolicy a ra) : Effect s (.prn a) (s.emit (s.x ra))
  | add {a b : Byte} {ra rb : Fin 8} (ha : NamesReg s.cfg.regIndexPolicy a ra)
      (hb : NamesReg s.cfg.regIndexPolicy b rb) : Effect s (.add a b) (s.setX ra (s.x ra + s.x rb))
  | mul {a b : Byte} {ra rb : Fin 8} (ha : NamesReg s.cfg.regIndexPolicy a ra)
      (hb : NamesReg s.cfg.regIndexPolicy b rb) : Effect s (.mul a b) (s.setX ra (s.x ra * s.x rb))
  | cmp {a b : Byte} {ra rb : Fin 8} (ha : NamesReg s.cfg.regIndexPolicy a ra)
      (hb : NamesReg s.cfg.regIndexPolicy b rb) :
      Effect s (.cmp a b) (s.setFl (compareFlags (s.x ra) (s.x rb)))
  | push {a : Byte} {ra : Fin 8} {k : Nat} (ha : NamesReg s.cfg.regIndexPolicy a ra)
      (hk : ReachesByte s.cfg.addrPolicy (spDec s.cfg.spWrap s.sp).toNat k) :
      Effect s (.push a) (s.pushed k (s.x ra))
  | pushFault {a : Byte} {ra : Fin 8} (ha : NamesReg s.cfg.regIndexPolicy a ra)
      (hk : ReachesNone s.cfg.addrPolicy (spDec s.cfg.spWrap s.sp).toNat) : Effect s (.push a) s.pushFailed
  | pop {a : Byte} {ra : Fin 8} {k : Nat} (ha : NamesReg s.cfg.regIndexPolicy a ra)
      (hk : ReachesByte s.cfg.addrPolicy s.sp.toNat k) :
      Effect s (.pop a) ((s.setX ra (s.mem.read k)).setSp (spInc s.cfg.spWrap s.sp))
  | popFault {a : Byte} {ra : Fin 8} (ha : NamesReg s.cfg.regIndexPolicy a ra)
      (hk : ReachesNone s.cfg.addrPolicy s.sp.toNat) :
      Effect s (.pop a) (s.raise (.addressOutOfRange s.sp.toNat s.pc0))
  | callTable {a : Byte} {ra : Fin 8} {k : Nat} (ha : NamesReg s.cfg.regIndexPolicy a ra)
      (hk : ReachesByte s.cfg.addrPolicy (spDec s.cfg.spWrap s.sp).toNat k) (hm : s.cfg.callRetMode = .table) :
      Effect s (.call a) ((s.pushed k (s.pc.setWidth 8)).jump (s.x ra))
  | callObserved {a : Byte} {ra : Fin 8} {k : Nat} (ha : NamesReg s.cfg.regIndexPolicy a ra)
      (hk : ReachesByte s.cfg.addrPolicy (spDec s.cfg.spWrap s.sp).toNat k) (hm : s.cfg.callRetMode ≠ .table) :
      Effect s (.call a) (s.pushed k (s.pc.setWidth 8))
  | callFault {a : Byte} {ra : Fin 8} (ha : NamesReg s.cfg.regIndexPolicy a ra)
      (hk : ReachesNone s.cfg.addrPolicy (spDec s.cfg.spWrap s.sp).toNat) : Effect s (.call a) s.pushFailed
  | retTable {k : Nat} (hk : ReachesByte s.cfg.addrPolicy s.sp.toNat k) (hm : s.cfg.callRetMode = .table) :
      Effect s .ret ((s.jump (s.mem.read k)).setSp (spInc s.cfg.spWrap s.sp))
  | retObserved {k : Nat} (hk : ReachesByte s.cfg.addrPolicy s.sp.toNat k) (hm : s.cfg.callRetMode ≠ .table) :
      Effect s .ret (s.jump (s.mem.read k))
  | retFault (hk : ReachesNone s.cfg.addrPolicy s.sp.toNat) :
      Effect s .ret (s.raise (.addressOutOfRange s.sp.toNat s.pc0))
  | jmp {a : Byte} {ra : Fin 8} (ha : NamesReg s.cfg.regIndexPolicy a ra) : Effect s (.jmp a) (s.jump (s.x ra))
  | jeqTaken {a : Byte} {ra : Fin 8} (ha : NamesReg s.cfg.regIndexPolicy a ra) (he : equalSet s.fl = true) :
      Effect s (.jeq a) (s.jump (s.x ra))
  | jeqPassed {a : Byte} {ra : Fin 8} (ha : NamesReg s.cfg.regIndexPolicy a ra) (he : ¬ equalSet s.fl = true) :
      Effect s (.jeq a) s
  | jneTaken {a : Byte} {ra : Fin 8} (ha : NamesReg s.cfg.regIndexPolicy a ra) (he : ¬ equalSet s.fl = true) :
      Effect s (.jne a) (s.jump (s.x ra))
  | jnePassed {a : Byte} {ra : Fin 8} (ha : NamesReg s.cfg.regIndexPolicy a ra) (he : equalSet s.fl = true) :
      Effect s (.jne a) s

/-! ### The effects are those of `exec` -/

theorem exec_badFirst {s : State} {i : Instr} {a : Byte} (hi : i.regOperands.head? = some a)
    (ha : NamesNone s.cfg.regIndexPolicy a) : exec i s = .next (s.raise (.badRegister a s.pc0)) := by
  cases i with
  | hlt | ret => cases hi
  | _ => cases hi; exact withReg_none ha _

theorem exec_badSecond {s : State} {i : Instr} {a b : Byte} {ra : Fin 8} (hi : i.regOperands = [a, b])
    (ha : NamesReg s.cfg.regIndexPolicy a ra) (hb : NamesNone s.cfg.regIndexPolicy b) :
    exec i s = .next (s.raise (.badRegister b s.pc0)) := by
  cases i with
  | add | mul | cmp => cases hi; exact (withReg_names ha _).trans (withReg_none hb _)
  | _ => cases hi

theorem aluInstr_names {s : State} {a b : Byte} {ra rb : Fin 8} (ha : NamesReg s.cfg.regIndexPolicy a ra)
    (hb : NamesReg s.cfg.regIndexPolicy b rb) (sel : BitVec 2) : aluInstr s sel a b = alu s sel ra rb :=
  (withReg_names ha _).trans (withReg_names hb _)

theorem execRet_reaches {s : State} {k : Nat} (hk : ReachesByte s.cfg.addrPolicy s.sp.toNat k) :
    execRet s = .next (if s.cfg.callRetMode = .table
      then (s.jump (s.mem.read k)).setSp (spInc s.cfg.spWrap s.sp) else s.jump (s.mem.read k)) :=
  memRead_reaches hk _

theorem execRet_none {s : State} (hk : ReachesNone s.cfg.addrPolicy s.sp.toNat) :
    execRet s = .next (s.raise (.addressOutOfRange s.sp.toNat s.pc0)) :=
  memRead_none hk _

/-- Every listed effect is what the body does. -/
theorem Effect.exec_eq {s t : State} {i : Instr} (h : Effect s i t) : exec i s = .next t := by
  cases h with
  | badFirst hi ha => exact exec_badFirst hi ha
  | badSecond hi ha hb => exact exec_badSecond hi ha hb
  | hlt => rfl
  | ldi ha | prn ha | jmp ha => exact withReg_names ha _
  | add ha hb => exact (aluInstr_names ha hb _).trans (alu_add s _ _)
  | mul ha hb => exact (aluInstr_names ha hb _).trans (alu_mul s _ _)
  | cmp ha hb => exact (aluInstr_names ha hb _).trans (alu_cmp s _ _)
  | push ha hk => exact (withReg_names ha _).trans (pushByte_reaches hk _ _)
  | pushFault ha hk | callFault ha hk => exact (withReg_names ha _).trans (pushByte_none hk _ _)
  | pop ha hk => exact (withReg_names ha _).trans (memRead_reaches hk _)
  | popFault ha hk => exact (withReg_names ha _).trans (memRead_none hk _)
  | callTable ha hk hm =>
    exact ((withReg_names ha _).trans (pushByte_reaches hk _ _)).trans (congrArg _ (if_pos hm))
  | callObserved ha hk hm =>
    exact ((withReg_names ha _).trans (pushByte_reaches hk _ _)).trans (congrArg _ (if_neg hm))
  | retTable hk hm => exact (execRet_reaches hk).trans (congrArg _ (if_pos hm))
  | retObserved hk hm => exact (execRet_reaches hk).trans (congrArg _ (if_neg hm))
  | retFault hk => exact execRet_none hk
  | jeqTaken ha he | jnePassed ha he => exact (withReg_names ha _).trans (congrArg _ (if_pos he))
  | jeqPassed ha he | jneTaken ha he => exact (withReg_names ha _).trans (congrArg _ (if_neg he))

/-- An instruction with one register operand has an effect if it has one wherever the operand names a register. -/
theorem Effect.exists_of_one {s : State} {i : Instr} {a : Byte} (hi : i.regOperands.head? = some a)
    (h : ∀ ra, NamesReg s.cfg.regIndexPolicy a ra → ∃ t, Effect s i t) : ∃ t, Effect s i t := by
  rcases names_or_none s.cfg.regIndexPolicy a with ⟨ra, ha⟩ | ha
  · exact h ra ha
  · exact ⟨_, .badFirst hi ha⟩

/-- The same for an instruction with two register operands. -/
theorem Effect.exists_of_two {s : State} {i : Instr} {a b : Byte} (hi : i.regOperands = [a, b])
    (h : ∀ ra rb, NamesReg s.cfg.regIndexPolicy a ra → NamesReg s.cfg.regIndexPolicy b rb → ∃ t, Effect s i t) :
    ∃ t, Effect s i t := by
  refine Effect.exists_of_one (a := a) (by rw [hi]; rfl) fun ra ha => ?_
  rcases names_or_none s.cfg.regIndexPolicy b with ⟨rb, hb⟩ | hb
  · exact h ra rb ha hb
  · exact ⟨_, .badSecond hi ha hb⟩

/-- The list is complete: every instruction has an effect on every state. -/
theorem Effect.total (s : State) (i : Instr) : ∃ t, Effect s i t := by
  cases i with
  | hlt => exact ⟨_, .hlt⟩
  | ldi a imm => exact exists_of_one rfl fun _ ha => ⟨_, .ldi ha⟩
  | prn a => exact exists_of_one rfl fun _ ha => ⟨_, .prn ha⟩
  | add a b => exact exists_of_two rfl fun _ _ ha hb => ⟨_, .add ha hb⟩
  | mul a b => exact exists_of_two rfl fun _ _ ha hb => ⟨_, .mul ha hb⟩
  | cmp a b => exact exists_of_two rfl fun _ _ ha hb => ⟨_, .cmp ha hb⟩
  | push a =>
    refine exists_of_one rfl fun _ ha => ?_
    rcases reaches_or_none s.cfg.addrPolicy (spDec s.cfg.spWrap s.sp).toNat with ⟨k, hk⟩ | hk
    · exact ⟨_, .push ha hk⟩
    · exact ⟨_, .pushFault ha hk⟩
  | pop a =>
    refine exists_of_one rfl fun _ ha => ?_
    rcases reaches_or_none s.cfg.addrPolicy s.sp.toNat with ⟨k, hk⟩ | hk
    · exact ⟨_, .pop ha hk⟩
    · exact ⟨_, .popFault ha hk⟩
  | call a =>
    refine exists_of_one rfl fun _ ha => ?_
    rcases reaches_or_none s.cfg.addrPolicy (spDec s.cfg.spWrap s.sp).toNat with ⟨k, hk⟩ | hk
    · by_cases hm : s.cfg.callRetMode = .table
      · exact ⟨_, .callTable ha hk hm⟩
      · exact ⟨_, .callObserved ha hk hm⟩
    · exact ⟨_, .callFault ha hk⟩
  | ret =>
    rcases reaches_or_none s.cfg.addrPolicy s.sp.toNat with ⟨k, hk⟩ | hk
    · by_cases hm : s.cfg.callRetMode = .table
      · exact ⟨_, .retTable hk hm⟩
      · exact ⟨_, .retObserved hk hm⟩
    · exact ⟨_, .retFault hk⟩
  | jmp a => exact exists_of_one rfl fun _ ha => ⟨_, .jmp ha⟩
  | jeq a =>
    refine exists_of_one rfl fun _ ha => ?_
    by_cases he : equalSet s.fl = true
    · exact ⟨_, .jeqTaken ha he⟩
    · exact ⟨_, .jeqPassed ha he⟩
  | jne a =>
    refine exists_of_one rfl fun _ ha => ?_
    by_cases he : equalSet s.fl = true
    · exact ⟨_, .jnePassed ha he⟩
    · exact ⟨_, .jneTaken ha he⟩

/-- The effects are exactly what `exec` answers. -/
theorem exec_iff_effect {s t : State} {i : Instr} : exec i s = .next t ↔ Effect s i t := by
  refine ⟨fun h => ?_, Effect.exec_eq⟩
  obtain ⟨u, hu⟩ := Effect.total s i
  have : u = t := by simpa [hu.exec_eq] using h
  exact this ▸ hu

/-- What a step that answers a next state can do: a fetch fault, an illegal opcode, or the effect of the instruction
fetched on the latched state. -/
theorem step_effect {s t : State} (h : step s = .next t) :
    (∃ f, t = s.raise f)
      ∨ ∃ ir opA opB, FetchesBytes s ir opA opB
        ∧ ((∃ f, t = (s.latch ir opA opB).raise f) ∨ ∃ i, Fetches s i ∧ Effect (s.latch ir opA opB) i t) := by
  obtain ⟨-, ⟨-, -, ht⟩ | ⟨ir, opA, opB, hb, ⟨-, ht⟩ | ⟨i, hd, he⟩⟩⟩ := step_cases h
  · exact .inl ⟨_, ht⟩
  · exact .inr ⟨ir, opA, opB, hb, .inl ⟨_, ht⟩⟩
  · exact .inr ⟨ir, opA, opB, hb, .inr ⟨i, ⟨ir, opA, opB, hb, hd⟩, exec_iff_effect.1 he⟩⟩

end Sys2Proof.Machine

/-! PROOFS. The invariant of the machine (spec/10_state.md R17, R19, R21, R29): every operation of a body keeps it, so
every effect and every step does. -/

namespace Sys2Proof.Machine

/-! ### The operations keep the invariant -/

theorem Inv.setX {s : State} (h : Inv s) (r : Fin 8) (v : Byte) : Inv (s.setX r v) := ⟨h.mem, h.flags, h.pc, h.sp⟩

theorem Inv.emit {s : State} (h : Inv s) (v : Byte) : Inv (s.emit v) := ⟨h.mem, h.flags, h.pc, h.sp⟩

theorem Inv.halt {s : State} (h : Inv s) : Inv s.halt := ⟨h.mem, h.flags, h.pc, h.sp⟩

theorem Inv.raise {s : State} (h : Inv s) (f : Fatal) : Inv (s.raise f) := ⟨h.mem, h.flags, h.pc, h.sp⟩

theorem Inv.setSp {s : State} (h : Inv s) {v : Cursor} (hv : v.toNat < s.cfg.spWrap.modulus) : Inv (s.setSp v) :=
  ⟨h.mem, h.flags, h.pc, hv⟩

theorem Inv.setFl {s : State} (h : Inv s) {v : Byte} (hv : LegalFlags v) : Inv (s.setFl v) :=
  ⟨h.mem, hv, h.pc, h.sp⟩

theorem Inv.storeByte {s : State} (h : Inv s) {a : Nat} (ha : a < Memory.size) (v : Byte) : Inv (s.storeByte a v) :=
  ⟨Memory.write_wf h.mem v ha, h.flags, h.pc, h.sp⟩

/-- A byte is a legal pc under both policies. -/
theorem byte_le_pcLimit (p : AddrPolicy) (v : Byte) : v.toNat ≤ pcLimit p := by
  have := v.isLt
  cases p <;> simp only [pcLimit] <;> omega

theorem Inv.jump {s : State} (h : Inv s) (v : Byte) : Inv (s.jump v) :=
  ⟨h.mem, h.flags, by rw [State.pc_jump_toNat]; exact byte_le_pcLimit _ v, h.sp⟩

theorem Inv.spDec {s : State} (h : Inv s) : Inv (s.setSp (spDec s.cfg.spWrap s.sp)) := h.setSp (spDec_lt _ _)

theorem Inv.pushed {s : State} (h : Inv s) {k : Nat}
    (hk : ReachesByte s.cfg.addrPolicy (Machine.spDec s.cfg.spWrap s.sp).toNat k) (v : Byte) : Inv (s.pushed k v) :=
  h.spDec.storeByte hk.lt_size v

theorem Inv.pushFailed {s : State} (h : Inv s) : Inv s.pushFailed := h.spDec.raise _

theorem compareFlags_legal (a b : Byte) : LegalFlags (compareFlags a b) := by
  unfold compareFlags
  split
  · exact .inr (.inl rfl)
  · split
    · exact .inr (.inr (.inl rfl))
    · exact .inr (.inr (.inr rfl))

/-- The advanced pc stays in its range, because under `fault` no fetch succeeds past 253. -/
theorem latch_pc_le {s : State} {ir opA opB : Byte} (h : FetchesBytes s ir opA opB) :
    (s.latch ir opA opB).pc.toNat ≤ pcLimit s.cfg.addrPolicy := by
  obtain ⟨hfault, hwrap⟩ := advanced_latch h
  have hir := ir.isLt
  cases hp : s.cfg.addrPolicy with
  | fault =>
    have hpc : ¬ 254 ≤ s.pc.toNat := fun hpc => no_fetch hp hpc h
    have := hfault hp
    simp only [pcLimit]
    omega
  | wrap8 =>
    have := hwrap hp
    simp only [pcLimit]
    omega

theorem Inv.latch {s : State} (h : Inv s) {ir opA opB : Byte} (hb : FetchesBytes s ir opA opB) :
    Inv (s.latch ir opA opB) := ⟨h.mem, h.flags, latch_pc_le hb, h.sp⟩

/-! ### Effects and steps keep the invariant -/

theorem Effect.inv {s t : State} {i : Instr} (h : Effect s i t) (hs : Inv s) : Inv t := by
  cases h with
  | badFirst | badSecond | popFault | retFault => exact hs.raise _
  | hlt => exact hs.halt
  | ldi | add | mul => exact hs.setX _ _
  | prn => exact hs.emit _
  | cmp => exact hs.setFl (compareFlags_legal _ _)
  | push ha hk => exact hs.pushed hk _
  | pushFault | callFault => exact hs.pushFailed
  | pop => exact (hs.setX _ _).setSp (spInc_lt _ _)
  | callTable ha hk => exact (hs.pushed hk _).jump _
  | callObserved ha hk => exact hs.pushed hk _
  | retTable => exact (hs.jump _).setSp (spInc_lt _ _)
  | retObserved | jmp | jeqTaken | jneTaken => exact hs.jump _
  | jeqPassed | jnePassed => exact hs

/-- Settles O38: a fetch fault only sets the status; otherwise the latch keeps the invariant and so does the effect on
the latched state. -/
theorem stepKeepsTheInvariant : Obligations.StepKeepsTheInvariant := by
  intro s t hs h
  obtain ⟨f, rfl⟩ | ⟨ir, opA, opB, hb, ⟨f, rfl⟩ | ⟨i, -, he⟩⟩ := step_effect h
  · exact hs.raise f
  · exact (hs.latch hb).raise f
  · exact he.inv (hs.latch hb)

/-! ### Reset and load -/

theorem inv_resetWith (c : Config) : Inv (State.resetWith c) where
  mem := Memory.nil_wf
  flags := .inl rfl
  pc := Nat.zero_le _
  sp := by cases h : c.spWrap <;> simp [h, SpWrap.modulus]

theorem overlongMemory_wf (image : List Byte) (before : Memory) : (overlongMemory image before).wf :=
  Memory.ofBytes_wf (by simp)

/-- A load of any length keeps the invariant. -/
theorem Inv.loadImage {s : State} (h : Inv s) (image : List Byte) : Inv (s.loadImage image) := by
  unfold State.loadImage
  split
  · exact ⟨overlongMemory_wf image s.mem, h.flags, h.pc, h.sp⟩
  · exact ⟨Memory.ofBytes_wf (by omega), h.flags, h.pc, h.sp⟩

/-- Settles O39: boot is a load after reset, and both meet the invariant. -/
theorem resetMeetsTheInvariant : Obligations.ResetMeetsTheInvariant :=
  ⟨inv_resetWith _, fun s image => (inv_resetWith s.cfg).loadImage image⟩

end Sys2Proof.Machine

/-! PROOFS. Which instructions write sp, fl and the output, and which read fl and x[7] (spec/10_state.md R14, R19, R22,
R28). -/

namespace Sys2Proof.Machine

/-! ### What an effect writes -/

/-- Only CMP writes fl (10_state.md R22). -/
theorem Effect.fl_eq_or_cmp {s t : State} {i : Instr} (h : Effect s i t) : t.fl = s.fl ∨ ∃ a b, i = .cmp a b := by
  cases h with
  | cmp => exact .inr ⟨_, _, rfl⟩
  | _ => exact .inl rfl

/-- Only the stack instructions write sp (10_state.md R19). -/
theorem Effect.sp_eq_or_stack {s t : State} {i : Instr} (h : Effect s i t) :
    t.sp = s.sp ∨ i = .ret ∨ ∃ a, i = .push a ∨ i = .pop a ∨ i = .call a := by
  cases h with
  | push | pushFault => exact .inr (.inr ⟨_, .inl rfl⟩)
  | pop => exact .inr (.inr ⟨_, .inr (.inl rfl)⟩)
  | callTable | callObserved | callFault => exact .inr (.inr ⟨_, .inr (.inr rfl)⟩)
  | retTable => exact .inr (.inl rfl)
  | _ => exact .inl rfl

/-- Only PRN writes the output, and it appends its register (10_state.md R28). -/
theorem Effect.out_eq_or_prn {s t : State} {i : Instr} (h : Effect s i t) :
    t.out = s.out ∨ ∃ a r, i = .prn a ∧ NamesReg s.cfg.regIndexPolicy a r ∧ t.out = s.out ++ [s.x r] := by
  cases h with
  | prn ha => exact .inr ⟨_, _, rfl, ha, rfl⟩
  | _ => exact .inl rfl

/-- Settles O30: a fault of the front leaves sp alone, and the effect fetched moves it only if it is of the stack. -/
theorem onlyStackInstructionsMoveSp : Obligations.OnlyStackInstructionsMoveSp := by
  intro s t h hsp
  obtain ⟨f, rfl⟩ | ⟨ir, opA, opB, -, ⟨f, rfl⟩ | ⟨i, hi, he⟩⟩ := step_effect h
  · exact absurd rfl hsp
  · exact absurd rfl hsp
  · obtain heq | rfl | ⟨a, rfl | rfl | rfl⟩ := he.sp_eq_or_stack
    · exact absurd heq hsp
    · exact .inl hi
    · exact .inr ⟨a, .inl hi⟩
    · exact .inr ⟨a, .inr (.inl hi)⟩
    · exact .inr ⟨a, .inr (.inr hi)⟩

/-- Settles O33: a fault of the front leaves the output alone, and the effect fetched extends it only if it is PRN's.
-/
theorem onlyPrnWritesTheOutput : Obligations.OnlyPrnWritesTheOutput := by
  intro s t h
  obtain ⟨f, rfl⟩ | ⟨ir, opA, opB, -, ⟨f, rfl⟩ | ⟨i, hi, he⟩⟩ := step_effect h
  · exact .inl rfl
  · exact .inl rfl
  · obtain heq | ⟨a, r, rfl, ha, heq⟩ := he.out_eq_or_prn
    · exact .inl heq
    · exact .inr ⟨a, r, hi, ha, heq⟩

/-! ### What an effect reads of fl -/

/-- Only JEQ and JNE read fl (10_state.md R22): any other effect carries another value of fl along, or is CMP's and
writes the same value over it. -/
theorem Effect.ignores_fl {s t : State} {i : Instr} (h : Effect s i t) (hjeq : i.mnemonic ≠ .jeq)
    (hjne : i.mnemonic ≠ .jne) (v : Byte) :
    (t.fl = s.fl ∧ Effect (s.setFl v) i (t.setFl v)) ∨ Effect (s.setFl v) i t := by
  cases h with
  | cmp ha hb => exact .inr (.cmp (s := s.setFl v) ha hb)
  | jeqTaken | jeqPassed => exact absurd rfl hjeq
  | jneTaken | jnePassed => exact absurd rfl hjne
  | badFirst hi ha => exact .inl ⟨rfl, .badFirst hi ha⟩
  | badSecond hi ha hb => exact .inl ⟨rfl, .badSecond hi ha hb⟩
  | hlt => exact .inl ⟨rfl, .hlt⟩
  | ldi ha => exact .inl ⟨rfl, .ldi ha⟩
  | prn ha => exact .inl ⟨rfl, .prn ha⟩
  | add ha hb => exact .inl ⟨rfl, .add ha hb⟩
  | mul ha hb => exact .inl ⟨rfl, .mul ha hb⟩
  | push ha hk => exact .inl ⟨rfl, .push ha hk⟩
  | pushFault ha hk => exact .inl ⟨rfl, .pushFault ha hk⟩
  | pop ha hk => exact .inl ⟨rfl, .pop ha hk⟩
  | popFault ha hk => exact .inl ⟨rfl, .popFault ha hk⟩
  | callTable ha hk hm => exact .inl ⟨rfl, .callTable ha hk hm⟩
  | callObserved ha hk hm => exact .inl ⟨rfl, .callObserved ha hk hm⟩
  | callFault ha hk => exact .inl ⟨rfl, .callFault ha hk⟩
  | retTable hk hm => exact .inl ⟨rfl, .retTable hk hm⟩
  | retObserved hk hm => exact .inl ⟨rfl, .retObserved hk hm⟩
  | retFault hk => exact .inl ⟨rfl, .retFault hk⟩
  | jmp ha => exact .inl ⟨rfl, .jmp ha⟩

/-- Settles O29: a step that changes fl has the effect of CMP, and only the effects of JEQ and JNE depend on fl. -/
theorem onlyCmpWritesAndOnlyBranchesReadFlags : Obligations.OnlyCmpWritesAndOnlyBranchesReadFlags := by
  refine ⟨fun s t h hfl => ?_, fun i s t v hjeq hjne h => ?_⟩
  · obtain ⟨f, rfl⟩ | ⟨ir, opA, opB, -, ⟨f, rfl⟩ | ⟨i, hi, he⟩⟩ := step_effect h
    · exact absurd rfl hfl
    · exact absurd rfl hfl
    · obtain heq | ⟨a, b, rfl⟩ := he.fl_eq_or_cmp
      · exact absurd heq hfl
      · exact ⟨a, b, hi⟩
  · obtain ⟨heq, he⟩ | he := (exec_iff_effect.1 h).ignores_fl hjeq hjne v
    · exact ⟨t.setFl v, he.exec_eq, rfl, .inl ⟨heq, rfl⟩⟩
    · exact ⟨t, he.exec_eq, rfl, .inr rfl⟩

/-! ### What a stack instruction reads and writes of the registers -/

/-- The mnemonics of the stack instructions (43_stack.md R85, R86; 44_control.md R87, R88). -/
def UsesStack (k : Mnemonic) : Prop := k = .push ∨ k = .pop ∨ k = .call ∨ k = .ret

theorem State.setX_comm (s : State) {i j : Fin 8} (h : i ≠ j) (v w : Byte) :
    (s.setX i v).setX j w = (s.setX j w).setX i v := by
  simp only [State.setX, Vector.set_comm (xs := s.regs) v w (Fin.val_ne_of_ne h)]

theorem State.x_setX_of_ne (s : State) {i j : Fin 8} (h : j ≠ i) (v : Byte) : (s.setX i v).x j = s.x j := by
  rw [State.x_setX, if_neg h]

/-- A register that no operand of a stack instruction names keeps its value, and its value makes no difference. -/
theorem Effect.ignores_unnamed {s t : State} {i : Instr} (h : Effect s i t) (huse : UsesStack i.mnemonic) {q : Fin 8}
    (hq : ∀ a ∈ i.regOperands, ¬ NamesReg s.cfg.regIndexPolicy a q) (v : Byte) :
    t.x q = s.x q ∧ Effect (s.setX q v) i (t.setX q v) := by
  have other {a : Byte} {r : Fin 8} (hmem : a ∈ i.regOperands) (ha : NamesReg s.cfg.regIndexPolicy a r) : r ≠ q :=
    fun e => hq a hmem (e ▸ ha)
  cases h with
  | badFirst hi ha => exact ⟨rfl, .badFirst hi ha⟩
  | badSecond hi ha hb => exact ⟨rfl, .badSecond hi ha hb⟩
  | push ha hk =>
    have he := Effect.push (s := s.setX q v) ha hk
    rw [State.x_setX_of_ne s (other List.mem_cons_self ha)] at he
    exact ⟨rfl, he⟩
  | pushFault ha hk => exact ⟨rfl, .pushFault ha hk⟩
  | pop ha hk =>
    have hr := other List.mem_cons_self ha
    have he := Effect.pop (s := s.setX q v) ha hk
    rw [State.setX_comm s hr.symm] at he
    exact ⟨State.x_setX_of_ne s hr.symm _, he⟩
  | popFault ha hk => exact ⟨rfl, .popFault ha hk⟩
  | callTable ha hk hm =>
    have he := Effect.callTable (s := s.setX q v) ha hk hm
    rw [State.x_setX_of_ne s (other List.mem_cons_self ha)] at he
    exact ⟨rfl, he⟩
  | callObserved ha hk hm => exact ⟨rfl, .callObserved ha hk hm⟩
  | callFault ha hk => exact ⟨rfl, .callFault ha hk⟩
  | retTable hk hm => exact ⟨rfl, .retTable hk hm⟩
  | retObserved hk hm => exact ⟨rfl, .retObserved hk hm⟩
  | retFault hk => exact ⟨rfl, .retFault hk⟩
  | _ => simp [UsesStack, Instr.mnemonic] at huse

/-- Settles O32: register 7 is, to the stack instructions, a register like any other. -/
theorem stackInstructionsIgnoreRegisterSeven : Obligations.StackInstructionsIgnoreRegisterSeven := by
  intro i s t v hi hseven h
  obtain ⟨hx, he⟩ := (exec_iff_effect.1 h).ignores_unnamed hi hseven v
  exact ⟨hx, he.exec_eq⟩

end Sys2Proof.Machine

/-! PROOFS. Which instructions write memory, and where (spec/20_memory.md R33, R44). -/

namespace Sys2Proof.Machine

/-- Only PUSH and CALL write memory, one byte, where the decremented sp reaches (20_memory.md R44). -/
theorem Effect.mem_eq_or_stores {s t : State} {i : Instr} (h : Effect s i t) :
    t.mem = s.mem
      ∨ (∃ a, i = .push a ∨ i = .call a)
        ∧ ∃ k v, ReachesByte s.cfg.addrPolicy (spDec s.cfg.spWrap s.sp).toNat k ∧ t.mem = s.mem.write k v := by
  cases h with
  | push ha hk => exact .inr ⟨⟨_, .inl rfl⟩, _, _, hk, rfl⟩
  | callTable ha hk | callObserved ha hk => exact .inr ⟨⟨_, .inr rfl⟩, _, _, hk, rfl⟩
  | _ => exact .inl rfl

/-- A byte that reads differently after a write is the one written. -/
theorem Memory.eq_of_read_write_ne {m : Memory} {a b : Nat} {v : Byte} (h : (m.write a v).read b ≠ m.read b) :
    b = a :=
  not_imp_comm.1 (Memory.read_write_other m v) h

/-- Settles O31: a fault of the front leaves memory alone, and the effect fetched, run on the latched state with the
same sp, changes a byte only if it is the one PUSH or CALL stores. -/
theorem onlyPushAndCallStore : Obligations.OnlyPushAndCallStore := by
  intro s t k h hread
  obtain ⟨f, rfl⟩ | ⟨ir, opA, opB, -, ⟨f, rfl⟩ | ⟨i, hi, he⟩⟩ := step_effect h
  · exact absurd rfl hread
  · exact absurd rfl hread
  · obtain heq | ⟨⟨a, hia⟩, j, v, hj, heq⟩ := he.mem_eq_or_stores
    · exact absurd (congrArg (Memory.read · k) heq) hread
    · have hkj : k = j := Memory.eq_of_read_write_ne (heq ▸ hread)
      refine ⟨⟨a, ?_⟩, hkj ▸ addrOk_of_reaches hj⟩
      rcases hia with rfl | rfl
      · exact .inl hi
      · exact .inr hi

end Sys2Proof.Machine

/-! PROOFS. The decoder and the encoder undo each other, and which bytes the decoder refuses (spec/30_encoding.md R46,
R47, R51, R52, R54 to R57). -/

namespace Sys2Proof

/-! ### What the decoder answers -/

/-- Under a well-formed map each mnemonic's byte decodes to that mnemonic, on the operand bytes given. -/
theorem decode_byteOf {m : OpcodeMap} (hm : m.wellFormed = true) (k : Mnemonic) (opA opB : Byte) :
    decode m (m.byteOf k) opA opB = .ok (assemble k opA opB) := by
  rw [decode, OpcodeMap.mnemonicOf_byteOf hm]

theorem decode_of_unlisted {m : OpcodeMap} {ir : Byte} (h : ∀ k, m.byteOf k ≠ ir) (opA opB : Byte) :
    decode m ir opA opB = .error (.illegalOpcode ir) := by
  rw [decode, OpcodeMap.mnemonicOf_eq_none.2 h]

theorem exists_assemble_of_decode_ok {m : OpcodeMap} {ir opA opB : Byte} {i : Instr}
    (h : decode m ir opA opB = .ok i) : ∃ k, m.byteOf k = ir ∧ assemble k opA opB = i := by
  rcases decode_cases m ir opA opB with ⟨k, hk, -, hd⟩ | ⟨-, hd⟩
  · exact ⟨k, hk, Except.ok.inj (hd.symm.trans h)⟩
  · cases hd.symm.trans h

/-! ### Operand bytes and formats -/

/-- The operand bytes of an assembled instruction are the first ones of the window, as many as its format names. -/
theorem operands_assemble (k : Mnemonic) (opA opB : Byte) :
    (assemble k opA opB).operands = [opA, opB].take k.format.operandCount := by
  cases k <;> rfl

/-- An instruction is assembled again from any window its operand bytes begin: no operand is lost, and the bytes past
its format make no difference (30_encoding.md R56). -/
theorem assemble_operands {i : Instr} {opA opB : Byte} {after later : List Byte}
    (h : i.operands ++ after = opA :: opB :: later) : assemble i.mnemonic opA opB = i := by
  cases i with
  | hlt | ret => rfl
  | _ => cases h; rfl

theorem Instr.length_operands (i : Instr) : i.operands.length = i.mnemonic.format.operandCount := by
  cases i <;> rfl

theorem Format.operandCount_le_two (f : Format) : f.operandCount ≤ 2 := by cases f <;> decide

theorem operandField_eq_div (ir : Byte) : operandField ir = ir.toNat / 64 := by
  rw [operandField, BitVec.toNat_ushiftRight, Nat.shiftRight_eq_div_pow]

/-! ### The statements -/

/-- Settles O1: the first byte of the window is the byte of the instruction's mnemonic, and its operand bytes begin the
rest of the window. -/
theorem decodeOfEncodeIsTheInstruction : Obligations.DecodeOfEncodeIsTheInstruction := by
  intro m hm i ir opA opB after later h
  obtain ⟨rfl, hops⟩ : m.byteOf i.mnemonic = ir ∧ i.operands ++ after = opA :: opB :: later := List.cons.inj h
  rw [decode_byteOf hm, assemble_operands hops]

/-- Settles O2: what was read is assembled from the window, and its length is the shape of every encoding. -/
theorem encodeOfDecodedIsTheBytes : Obligations.EncodeOfDecodedIsTheBytes := by
  intro m ir opA opB i h
  obtain ⟨k, rfl, rfl⟩ := exists_assemble_of_decode_ok h
  refine ⟨?_, fun hm => ?_⟩
  · rw [encode, operands_assemble, assemble_mnemonic, Nat.add_comm, List.take_succ_cons]
  · obtain ⟨-, hlen, -⟩ := Laws.EncodingShape.of_operand_count (assemble k opA opB).length_operands m hm
    rw [hlen, assemble_mnemonic, operandField_eq_div]

/-- Settles O3: a mnemonic's byte decodes to it, and the lookup fails on every other byte. -/
theorem decoderReadsOnlyTheOpcodeByte : Obligations.DecoderReadsOnlyTheOpcodeByte := by
  refine fun m hm => ⟨fun k opA opB => ?_, fun ir opA opB h => ?_⟩
  · exact ⟨assemble k opA opB, decode_byteOf hm k opA opB, assemble_mnemonic k opA opB⟩
  · exact decode_of_unlisted (fun k => (h k).symm) opA opB

/-- Settles O5: no mnemonic's byte has a count field of 3, for no format has three operands, and none is 0. -/
theorem countThreeAndZeroAreIllegal : Obligations.CountThreeAndZeroAreIllegal := by
  intro m hm ir opA opB hir
  refine decode_of_unlisted (fun k hk => ?_) opA opB
  subst hk
  rcases hir with hthree | hzero
  · rw [← operandField_eq_div, OpcodeMap.operandField_byteOf hm] at hthree
    have := k.format.operandCount_le_two
    omega
  · exact OpcodeMap.byteOf_ne_zero hm k hzero

end Sys2Proof

/-! PROOFS. A step runs the instruction it fetched, and its outcome depends on nothing that earlier steps latched or
printed (spec/40_fetch_decode.md R62, R64, R65, R70). -/

namespace Sys2Proof.Machine

/-! ### What the front of a step does, case by case -/

theorem fetches_or_faults (s : State) :
    (∃ ir opA opB, FetchesBytes s ir opA opB) ∨ (s.cfg.addrPolicy = .fault ∧ 254 ≤ s.pc.toNat) := by
  rcases front_cases s with ⟨hp, hpc, -⟩ | ⟨ir, opA, opB, hb, -⟩
  · exact .inr ⟨hp, hpc⟩
  · exact .inl ⟨ir, opA, opB, hb⟩

theorem front_fetchFault {s : State} (hp : s.cfg.addrPolicy = .fault) (hpc : 254 ≤ s.pc.toNat) :
    front s = .ends (s.raise (.addressOutOfRange (lowestFailing s.pc) s.pc)) := by
  rcases front_cases s with ⟨-, -, hf⟩ | ⟨ir, opA, opB, hb, -⟩
  · exact hf
  · exact absurd hb (no_fetch hp hpc)

theorem fetchAddrs_reaches {p : AddrPolicy} {pc a0 a1 a2 : Nat} (h0 : ReachesByte p pc a0)
    (h1 : ReachesByte p (pc + 1) a1) (h2 : ReachesByte p (pc + 2) a2) : fetchAddrs p pc = .ok (a0, a1, a2) := by
  rw [fetchAddrs, addrOk_of_reaches h0, addrOk_of_reaches h1, addrOk_of_reaches h2]

theorem front_runs {s : State} {ir opA opB : Byte} {i : Instr} (hb : FetchesBytes s ir opA opB)
    (hd : decode s.cfg.opcodes ir opA opB = .ok i) : front s = .runs i (s.latch ir opA opB) := by
  obtain ⟨a0, a1, a2, h0, h1, h2, rfl, rfl, rfl⟩ := hb
  simp [front, fetchAddrs_reaches h0 h1 h2, hd]

theorem front_illegal {s : State} {ir opA opB : Byte} (hb : FetchesBytes s ir opA opB)
    (hk : ∀ k, s.cfg.opcodes.byteOf k ≠ ir) :
    front s = .ends ((s.latch ir opA opB).raise (.decodeError ir s.pc)) := by
  obtain ⟨a0, a1, a2, h0, h1, h2, rfl, rfl, rfl⟩ := hb
  simp [front, fetchAddrs_reaches h0 h1 h2, decode_of_unlisted hk]

/-- Settles O6: the body runs on the latched state, whose pc is the advanced one. -/
theorem stepRunsTheDecodedInstruction : Obligations.StepRunsTheDecodedInstruction := fun s ir opA opB _ hs hb hd =>
  ⟨(s.latch ir opA opB).pc, advanced_latch hb, step_runs hs (front_runs hb hd)⟩

/-! ### A body carries the output so far along -/

/-- `s` after an earlier output `o`. -/
def State.afterOut (o : List Byte) (s : State) : State := { s with out := o ++ s.out }

/-- `s` with nothing printed yet. -/
def State.silent (s : State) : State := { s with out := [] }

theorem State.emit_afterOut (o : List Byte) (s : State) (v : Byte) :
    (s.afterOut o).emit v = (s.emit v).afterOut o := by
  simp [State.emit, State.afterOut]

/-- No body reads the output (42_load_io_halt.md R83): after an earlier output each effect is the same one, for its
conditions say nothing of the output, and PRN appends to whatever stands there. -/
theorem Effect.afterOut {s t : State} {i : Instr} (h : Effect s i t) (o : List Byte) :
    Effect (s.afterOut o) i (t.afterOut o) := by
  cases h with
  | badFirst hi ha => exact .badFirst hi ha
  | badSecond hi ha hb => exact .badSecond hi ha hb
  | prn ha => exact State.emit_afterOut o s _ ▸ .prn ha
  | _ => constructor <;> assumption

/-! ### A step forgets the old latches -/

/-- `s` with the latches and the output so far of `h`: the parts of a state that R70 does not name. -/
def State.withHistoryOf (s h : State) : State :=
  { s with ir := h.ir, opA := h.opA, opB := h.opB, pc0 := h.pc0, out := h.out }

/-- After the latch only the output is left of the history. -/
theorem State.latch_withHistoryOf (s h : State) (ir opA opB : Byte) :
    (s.withHistoryOf h).latch ir opA opB = (s.latch ir opA opB).silent.afterOut h.out := by
  simp [State.latch, State.withHistoryOf, State.silent, State.afterOut]

/-- Where the fetch succeeds there is one outcome for every history, after that history's output. -/
theorem step_withHistoryOf {s : State} {ir opA opB : Byte} (hs : s.status = .running)
    (hb : FetchesBytes s ir opA opB) : ∃ t : State, ∀ h, step (s.withHistoryOf h) = .next (t.afterOut h.out) := by
  rcases decode_cases s.cfg.opcodes ir opA opB with ⟨k, -, -, hd⟩ | ⟨hk, -⟩
  · obtain ⟨t, ht⟩ := Effect.total (s.latch ir opA opB).silent (assemble k opA opB)
    refine ⟨t, fun h => ?_⟩
    rw [step_runs (s := s.withHistoryOf h) hs (front_runs hb hd), State.latch_withHistoryOf]
    exact (ht.afterOut h.out).exec_eq
  · refine ⟨(s.latch ir opA opB).silent.raise (.decodeError ir s.pc), fun h => ?_⟩
    rw [step_ends (s := s.withHistoryOf h) hs (front_illegal hb hk), State.latch_withHistoryOf]
    rfl

/-- Settles O10: the second state is the first with another history. A fetch fault adds only the status to each, and
any other step has the one outcome of `step_withHistoryOf`. -/
theorem stepIgnoresTheOldLatches : Obligations.StepIgnoresTheOldLatches := by
  intro s s' hs hs' hpc hmem hregs hsp hfl hcfg
  rcases fetches_or_faults s with ⟨ir, opA, opB, hb⟩ | ⟨hp, htop⟩
  · have heq : s.withHistoryOf s' = s' := by
      rw [State.withHistoryOf, hs, ← hs', ← hpc, ← hmem, ← hregs, ← hsp, ← hfl, ← hcfg]
    obtain ⟨t, ht⟩ := step_withHistoryOf hs hb
    have ht' := ht s'
    rw [heq] at ht'
    exact ⟨t.afterOut s.out, t.afterOut s'.out, t.out, ht s, ht', rfl, rfl, rfl, rfl, rfl, rfl, rfl, rfl, rfl,
      fun _ => ⟨rfl, rfl, rfl⟩⟩
  · have hstep := step_ends hs (front_fetchFault hp htop)
    have hstep' := step_ends hs' (front_fetchFault (hcfg ▸ hp) (hpc ▸ htop))
    rw [hpc] at hstep'
    exact ⟨_, _, [], hstep, hstep', hpc, hmem, hregs, hsp, hfl, hcfg, rfl, (List.append_nil _).symm,
      (List.append_nil _).symm, fun ⟨_, _, _, hb⟩ => absurd hb (no_fetch hp htop)⟩

end Sys2Proof.Machine

/-! PROOFS. What ADD, MUL and CMP write, what they leave unchanged, and which operands they refuse (spec/41_alu.md R75
to R77). -/

namespace Sys2Proof.Machine

/-! ### The frame of a register write and of a flags write -/

theorem State.x_setX_self (s : State) (r : Fin 8) (v : Byte) : (s.setX r v).x r = v := by
  rw [State.x_setX, if_pos rfl]

theorem sameElsewhere_setX (s : State) (r : Fin 8) (v : Byte) : SameElsewhere [r] [] s (s.setX r v) where
  regs _ hi := State.x_setX_of_ne s (List.ne_of_not_mem_cons hi) v
  mem _ _ := rfl
  ir := rfl
  opA := rfl
  opB := rfl
  pc0 := rfl
  cfg := rfl

theorem sameElsewhere_setFl (s : State) (v : Byte) : SameElsewhere [] [] s (s.setFl v) where
  regs _ _ := rfl
  mem _ _ := rfl
  ir := rfl
  opA := rfl
  opB := rfl
  pc0 := rfl
  cfg := rfl

/-! ### The flags of a comparison -/

theorem compareFlags_of_toNat_eq {a b : Byte} (h : a.toNat = b.toNat) : compareFlags a b = flagE :=
  if_pos (BitVec.eq_of_toNat_eq h)

theorem compareFlags_of_toNat_gt {a b : Byte} (h : b.toNat < a.toNat) : compareFlags a b = flagG := by
  have hne : a ≠ b := fun e => Nat.ne_of_gt h (congrArg BitVec.toNat e)
  rw [compareFlags, if_neg hne, if_pos h]

theorem compareFlags_of_toNat_lt {a b : Byte} (h : a.toNat < b.toNat) : compareFlags a b = flagL := by
  have hne : a ≠ b := fun e => Nat.ne_of_lt h (congrArg BitVec.toNat e)
  rw [compareFlags, if_neg hne, if_neg (Nat.lt_asymm h)]

/-! ### Both operand checks of format F2RR -/

/-- BadRegister for operand a, and for operand b once a names a register (60_exceptions.md R99, R101). -/
theorem exec_badOperands {s : State} {i : Instr} {a b : Byte} (hi : i.regOperands = [a, b]) :
    (NamesNone s.cfg.regIndexPolicy a → exec i s = .next (s.raise (.badRegister a s.pc0)))
      ∧ ∀ ra, NamesReg s.cfg.regIndexPolicy a ra → NamesNone s.cfg.regIndexPolicy b →
        exec i s = .next (s.raise (.badRegister b s.pc0)) :=
  ⟨fun ha => exec_badFirst (by rw [hi]; rfl) ha, fun _ ha hb => exec_badSecond hi ha hb⟩

/-! ### The statements -/

/-- Settles O11: the effect of ADD is one register write, of the eight-bit sum. -/
theorem addSumsModulo256 : Obligations.AddSumsModulo256 := by
  refine ⟨⟨rfl, rfl⟩, fun s a b => ⟨fun ra rb ha hb => ?_, exec_badOperands rfl⟩⟩
  have hsum : (s.x ra + s.x rb).toNat = ((s.x ra).toNat + (s.x rb).toNat) % 256 := BitVec.toNat_add _ _
  refine ⟨_, (Effect.add ha hb).exec_eq, ?_, sameElsewhere_setX s ra _, rfl, rfl, rfl, rfl, rfl⟩
  rw [State.x_setX_self, hsum]

/-- Settles O12: the effect of MUL is one register write, of the eight-bit product. -/
theorem mulKeepsTheLowByte : Obligations.MulKeepsTheLowByte := by
  refine ⟨⟨rfl, rfl⟩, fun s a b => ⟨fun ra rb ha hb => ?_, exec_badOperands rfl⟩⟩
  have hproduct : (s.x ra * s.x rb).toNat = ((s.x ra).toNat * (s.x rb).toNat) % 256 := BitVec.toNat_mul _ _
  refine ⟨_, (Effect.mul ha hb).exec_eq, ?_, sameElsewhere_setX s ra _, rfl, rfl, rfl, rfl, rfl⟩
  rw [State.x_setX_self, hproduct]

/-- Settles O13: the effect of CMP is one write of fl, and each of the three comparisons fixes the value written. -/
theorem cmpSetsExactlyOneFlag : Obligations.CmpSetsExactlyOneFlag := by
  refine ⟨⟨rfl, rfl⟩, fun s a b => ⟨fun ra rb ha hb => ?_, exec_badOperands rfl⟩⟩
  exact ⟨_, (Effect.cmp ha hb).exec_eq, compareFlags_of_toNat_eq, compareFlags_of_toNat_gt, compareFlags_of_toNat_lt,
    sameElsewhere_setFl s _, rfl, rfl, rfl, rfl⟩

end Sys2Proof.Machine

/-! PROOFS. What HLT, LDI and PRN do, what they leave unchanged, and which operands they refuse
(spec/42_load_io_halt.md R81 to R83). -/

namespace Sys2Proof

/-- The opcode byte read has the operand count of the instruction decoded in its bits 7:6 (30_encoding.md R51). -/
theorem operandCount_of_decode_ok {m : OpcodeMap} (hm : m.wellFormed = true) {ir opA opB : Byte} {i : Instr}
    (h : decode m ir opA opB = .ok i) : ir.toNat / 64 = i.mnemonic.format.operandCount := by
  obtain ⟨k, rfl, rfl⟩ := exists_assemble_of_decode_ok h
  rw [← operandField_eq_div, OpcodeMap.operandField_byteOf hm, assemble_mnemonic]

end Sys2Proof

namespace Sys2Proof.Machine

/-! ### Steps that stop, and the frame of an output -/

/-- A state that is not Running has no step (00_scope.md R10). -/
theorem step_stopped {s : State} {r : Fault} (h : s.status.stopReason = some r) : step s = .fault r := by
  rw [step, h]

theorem sameElsewhere_emit (s : State) (v : Byte) : SameElsewhere [] [] s (s.emit v) where
  regs _ _ := rfl
  mem _ _ := rfl
  ir := rfl
  opA := rfl
  opB := rfl
  pc0 := rfl
  cfg := rfl

/-! ### The statements -/

/-- Settles O16: a step that fetches HLT halts the latched state, whose pc has advanced by one because HLT's byte
counts no operands. -/
theorem hltEndsTheRun : Obligations.HltEndsTheRun := by
  refine ⟨⟨rfl, rfl⟩, fun _ => Effect.hlt.exec_eq, fun s hs hm ⟨ir, opA, opB, hb, hd⟩ => ?_⟩
  have hcount : ir.toNat / 64 = 0 := operandCount_of_decode_ok hm hd
  obtain ⟨hfault, hwrap⟩ := advanced_latch hb
  rw [hcount] at hfault hwrap
  have hstep : step s = .next (s.latch ir opA opB).halt := (step_runs hs (front_runs hb hd)).trans Effect.hlt.exec_eq
  exact ⟨_, hstep, rfl, step_stopped rfl, hfault, hwrap⟩

/-- Settles O17: the effect of LDI is one register write, of the operand byte itself. -/
theorem ldiLoadsTheImmediate : Obligations.LdiLoadsTheImmediate := by
  refine ⟨⟨rfl, rfl⟩, fun s a imm => ⟨fun ra ha => ?_, exec_badFirst rfl⟩⟩
  exact ⟨_, (Effect.ldi ha).exec_eq, State.x_setX_self s ra imm, sameElsewhere_setX s ra imm, rfl, rfl, rfl, rfl, rfl⟩

/-- Settles O18: the effect of PRN is one byte of output, the value of the register. -/
theorem prnAppendsTheRegister : Obligations.PrnAppendsTheRegister := by
  refine ⟨⟨rfl, rfl⟩, fun s a => ⟨fun ra ha => ?_, exec_badFirst rfl⟩⟩
  exact ⟨_, (Effect.prn ha).exec_eq, rfl, sameElsewhere_emit s (s.x ra), rfl, rfl, rfl, rfl⟩

end Sys2Proof.Machine

/-! PROOFS. What PUSH and POP write, what they leave unchanged, and when they end the run (spec/43_stack.md R85,
R86). -/

namespace Sys2Proof.Machine

/-! ### The frame of a push and of a write of sp -/

theorem SameElsewhere.setSp {regs : List (Fin 8)} {cells : List Nat} {s t : State} (h : SameElsewhere regs cells s t)
    (v : Cursor) : SameElsewhere regs cells s (t.setSp v) :=
  ⟨h.regs, h.mem, h.ir, h.opA, h.opB, h.pc0, h.cfg⟩

theorem sameElsewhere_pushed (s : State) (k : Nat) (v : Byte) : SameElsewhere [] [k] s (s.pushed k v) where
  regs _ _ := rfl
  mem _ ha := Memory.read_write_other s.mem v (List.ne_of_not_mem_cons ha)
  ir := rfl
  opA := rfl
  opB := rfl
  pc0 := rfl
  cfg := rfl

/-! ### The one stack address that fails its check -/

/-- An address below SP_WRAP fails its check only at 256 (10_state.md R20, 20_memory.md R36). -/
theorem ReachesNone.at_256 {p : AddrPolicy} {w : SpWrap} {a : Nat} (h : ReachesNone p a) (ha : a < w.modulus) :
    a = 256 ∧ w = .at257 ∧ p = .fault := by
  obtain ⟨hge, rfl⟩ := h
  cases w with
  | at256 => exact absurd ha (Nat.not_lt.2 hge)
  | at257 => exact ⟨Nat.le_antisymm (Nat.le_of_lt_succ ha) hge, rfl, rfl⟩

/-- A push fails only where it decrements sp to 256, and the new sp stays (60_exceptions.md R102). -/
theorem State.pushFailed_of_none {s : State}
    (h : ReachesNone s.cfg.addrPolicy (spDec s.cfg.spWrap s.sp).toNat) :
    s.cfg.spWrap = .at257 ∧ s.cfg.addrPolicy = .fault
      ∧ s.pushFailed = (s.setSp 256).raise (.addressOutOfRange 256 s.pc0) := by
  obtain ⟨htop, hw, hp⟩ := h.at_256 (spDec_lt _ _)
  have hsp : spDec s.cfg.spWrap s.sp = 256 := BitVec.eq_of_toNat_eq htop
  exact ⟨hw, hp, by rw [State.pushFailed, htop, hsp]⟩

/-! ### The statements -/

/-- Settles O19: the effect of PUSH is the decrement of sp and one byte written at the new sp; where that write fails,
the decrement alone is left. -/
theorem pushStoresBelowTheStackPointer : Obligations.PushStoresBelowTheStackPointer := by
  refine ⟨⟨rfl, rfl⟩, fun s a => ⟨fun ra k ha hm hk => ?_, exec_badFirst rfl, fun ra ha hk => ?_⟩⟩
  · have hread : (s.pushed k (s.x ra)).mem.read k = s.x ra := Memory.read_write_same hm k _
    exact ⟨_, (Effect.push ha (reaches_of_addrOk hk)).exec_eq, hread, spDec_toNat _ _, sameElsewhere_pushed s k _,
      rfl, rfl, rfl, rfl⟩
  · obtain ⟨hw, hp, hfailed⟩ := State.pushFailed_of_none (none_of_addrOk hk)
    exact ⟨hw, hp, (Effect.pushFault ha (none_of_addrOk hk)).exec_eq.trans (congrArg _ hfailed)⟩

/-- Settles O20: the effect of POP is one register write, of the byte at sp, and the increment of sp; where the read
fails nothing is written. -/
theorem popLoadsAtTheStackPointer : Obligations.PopLoadsAtTheStackPointer := by
  refine ⟨⟨rfl, rfl⟩, fun s a => ⟨fun ra k ha hk => ?_, exec_badFirst rfl, fun ra ha hk => ?_⟩⟩
  · exact ⟨_, (Effect.pop ha (reaches_of_addrOk hk)).exec_eq, State.x_setX_self s ra _, spInc_toNat _ _,
      (sameElsewhere_setX s ra _).setSp _, rfl, rfl, rfl, rfl⟩
  · exact ⟨(Effect.popFault ha (none_of_addrOk hk)).exec_eq, (none_of_addrOk hk).at_256⟩

end Sys2Proof.Machine

/-! PROOFS. What CALL, RET, JMP, JEQ and JNE write, what they leave unchanged, and when they end the run
(spec/44_control.md R87 to R91). -/

namespace Sys2Proof.Machine

/-! ### The frame of a jump and of a branch not taken -/

theorem SameElsewhere.refl (s : State) : SameElsewhere [] [] s s where
  regs _ _ := rfl
  mem _ _ := rfl
  ir := rfl
  opA := rfl
  opB := rfl
  pc0 := rfl
  cfg := rfl

theorem SameElsewhere.jump {regs : List (Fin 8)} {cells : List Nat} {s t : State} (h : SameElsewhere regs cells s t)
    (v : Byte) : SameElsewhere regs cells s (t.jump v) :=
  ⟨h.regs, h.mem, h.ir, h.opA, h.opB, h.pc0, h.cfg⟩

theorem sameElsewhere_jump (s : State) (v : Byte) : SameElsewhere [] [] s (s.jump v) := (SameElsewhere.refl s).jump v

/-! ### The branch condition as a number -/

theorem equalSet_iff (fl : Byte) : equalSet fl = true ↔ fl.toNat % 2 = 1 := by
  rw [equalSet, BitVec.getLsbD, Nat.testBit_zero, decide_eq_true_iff]

theorem not_equalSet_iff (fl : Byte) : ¬ equalSet fl = true ↔ fl.toNat % 2 = 0 := by
  rw [equalSet_iff]; exact Nat.mod_two_ne_one

/-! ### RET reads back what CALL pushed -/

/-- A decrement of sp is undone by an increment, for an sp inside its width (10_state.md R20). -/
theorem spInc_spDec {w : SpWrap} {sp : Cursor} (h : sp.toNat < w.modulus) : spInc w (spDec w sp) = sp := by
  have hpos : 1 ≤ sp.toNat + w.modulus := Nat.le_add_left_of_le (modulus_pos w)
  apply BitVec.eq_of_toNat_eq
  rw [spInc_toNat, spDec_toNat, Nat.mod_add_mod, Nat.sub_add_cancel hpos, Nat.add_mod_right, Nat.mod_eq_of_lt h]

/-- With SP_WRAP = 256 the decremented sp is itself the address of a byte (10_state.md R20, 20_memory.md R36). -/
theorem spDec_reaches_self {w : SpWrap} (hw : w = .at256) (p : AddrPolicy) (sp : Cursor) :
    ReachesByte p (spDec w sp).toNat (spDec w sp).toNat := by
  subst hw
  exact .inl ⟨Nat.le_of_lt_succ (spDec_lt .at256 sp), rfl⟩

/-- A pc of eight bits is its own low byte, taken as a target (10_state.md R18). -/
theorem setWidth_low {pc : Cursor} (h : pc.toNat < 256) : (pc.setWidth 8).setWidth 9 = pc := by
  apply BitVec.eq_of_toNat_eq
  rw [BitVec.toNat_setWidth, BitVec.toNat_setWidth, Nat.mod_eq_of_lt h, Nat.mod_eq_of_lt pc.isLt]

/-- RET from a state that CALL left jumps to the byte pushed and increments the decremented sp (44_control.md R87,
R88). -/
theorem exec_ret_pushed_jump {s : State} {k : Nat} (hm : s.mem.wf) (hmode : s.cfg.callRetMode = .table)
    (hk : ReachesByte s.cfg.addrPolicy (spDec s.cfg.spWrap s.sp).toNat k) (v target : Byte) :
    exec .ret ((s.pushed k v).jump target)
      = .next ((((s.pushed k v).jump target).jump v).setSp (spInc s.cfg.spWrap (spDec s.cfg.spWrap s.sp))) := by
  have hread : ((s.pushed k v).jump target).mem.read k = v := Memory.read_write_same hm k v
  have hret := (Effect.retTable (s := (s.pushed k v).jump target) hk hmode).exec_eq
  rwa [hread] at hret

/-! ### The statements -/

/-- Settles O25: the effect of JMP is one write of pc. -/
theorem jmpLoadsThePc : Obligations.JmpLoadsThePc := by
  refine ⟨⟨rfl, rfl⟩, fun s a => ⟨fun ra ha => ?_, exec_badFirst rfl⟩⟩
  exact ⟨_, (Effect.jmp ha).exec_eq, State.pc_jump_toNat s _, sameElsewhere_jump s _, rfl, rfl, rfl, rfl⟩

/-- Settles O26: the effect of JEQ is that of JMP where bit 0 of fl is 1, and none where it is 0. -/
theorem jeqBranchesOnEqual : Obligations.JeqBranchesOnEqual := by
  refine ⟨⟨rfl, rfl⟩, fun s a => ⟨fun ra ha => ?_, exec_badFirst rfl⟩⟩
  by_cases he : equalSet s.fl = true
  · rw [(equalSet_iff _).1 he]
    exact ⟨_, (Effect.jeqTaken ha he).exec_eq, fun _ => State.pc_jump_toNat s _, nofun,
      sameElsewhere_jump s _, rfl, rfl, rfl, rfl⟩
  · rw [(not_equalSet_iff _).1 he]
    exact ⟨s, (Effect.jeqPassed ha he).exec_eq, nofun, fun _ => rfl, .refl s, rfl, rfl, rfl, rfl⟩

/-- Settles O27: the effect of JNE is that of JMP where bit 0 of fl is 0, and none where it is 1. -/
theorem jneBranchesOnNotEqual : Obligations.JneBranchesOnNotEqual := by
  refine ⟨⟨rfl, rfl⟩, fun s a => ⟨fun ra ha => ?_, exec_badFirst rfl⟩⟩
  by_cases he : equalSet s.fl = true
  · rw [(equalSet_iff _).1 he]
    exact ⟨s, (Effect.jnePassed ha he).exec_eq, nofun, fun _ => rfl, .refl s, rfl, rfl, rfl, rfl⟩
  · rw [(not_equalSet_iff _).1 he]
    exact ⟨_, (Effect.jneTaken ha he).exec_eq, fun _ => State.pc_jump_toNat s _, nofun,
      sameElsewhere_jump s _, rfl, rfl, rfl, rfl⟩

/-- Settles O22: the effect of CALL is the push of the low byte of pc and, in table mode, a jump; where the push fails,
the decrement of sp alone is left. -/
theorem callPushesAndTransfers : Obligations.CallPushesAndTransfers := by
  refine ⟨⟨rfl, rfl⟩, fun s a => ⟨fun ra k ha hm hk => ?_, exec_badFirst rfl, fun ra ha hk => ?_⟩⟩
  · have hreach := reaches_of_addrOk hk
    have hread : ((s.pushed k (s.pc.setWidth 8)).mem.read k).toNat = s.pc.toNat % 256 :=
      (congrArg BitVec.toNat (Memory.read_write_same hm k _)).trans (BitVec.toNat_setWidth 8 s.pc)
    have hframe := sameElsewhere_pushed s k (s.pc.setWidth 8)
    cases hmode : s.cfg.callRetMode with
    | table =>
      exact ⟨_, (Effect.callTable ha hreach hmode).exec_eq, hread, spDec_toNat _ _,
        fun _ => State.pc_jump_toNat _ _, nofun, hframe.jump _, rfl, rfl, rfl⟩
    | observed =>
      have hne : s.cfg.callRetMode ≠ .table := by rw [hmode]; nofun
      exact ⟨_, (Effect.callObserved ha hreach hne).exec_eq, hread, spDec_toNat _ _,
        nofun, fun _ => rfl, hframe, rfl, rfl, rfl⟩
  · obtain ⟨hw, hp, hfailed⟩ := State.pushFailed_of_none (none_of_addrOk hk)
    exact ⟨hw, hp, (Effect.callFault ha (none_of_addrOk hk)).exec_eq.trans (congrArg _ hfailed)⟩

/-- Settles O24: the effect of RET is a jump to the byte at sp and, in table mode, the increment of sp; where the read
fails nothing is written. -/
theorem retLoadsThePc : Obligations.RetLoadsThePc := by
  refine ⟨⟨rfl, rfl⟩, fun s => ⟨fun k hk => ?_, fun hk => ?_⟩⟩
  · have hreach := reaches_of_addrOk hk
    have hframe := sameElsewhere_jump s (s.mem.read k)
    cases hmode : s.cfg.callRetMode with
    | table =>
      exact ⟨_, (Effect.retTable hreach hmode).exec_eq, State.pc_jump_toNat s _, fun _ => spInc_toNat _ _, nofun,
        hframe.setSp _, rfl, rfl, rfl⟩
    | observed =>
      have hne : s.cfg.callRetMode ≠ .table := by rw [hmode]; nofun
      exact ⟨_, (Effect.retObserved hreach hne).exec_eq, State.pc_jump_toNat s _, nofun, fun _ => rfl,
        hframe, rfl, rfl, rfl⟩
  · exact ⟨(Effect.retFault (none_of_addrOk hk)).exec_eq, (none_of_addrOk hk).at_256⟩

/-- Settles O28: RET reads the byte CALL pushed, at the sp CALL left, and the increment of sp undoes the decrement. -/
theorem retUndoesCall : Obligations.RetUndoesCall := by
  intro s a ra hmode hw hsp hpc hm ha
  have hreach := spDec_reaches_self hw s.cfg.addrPolicy s.sp
  have hback : spInc s.cfg.spWrap (spDec s.cfg.spWrap s.sp) = s.sp := spInc_spDec (by rw [hw]; exact hsp)
  exact ⟨_, _, (Effect.callTable ha hreach hmode).exec_eq, State.pc_jump_toNat _ _,
    exec_ret_pushed_jump hm hmode hreach _ _, setWidth_low hpc, hback, fun _ => rfl⟩

end Sys2Proof.Machine

/-! PROOFS. Which instructions end the run (spec/60_exceptions.md R107). -/

namespace Sys2Proof.Machine

/-- An effect keeps the status, is that of HLT, or is a fault (60_exceptions.md R95, R107). -/
theorem Effect.status_eq_or_hlt_or_faulted {s t : State} {i : Instr} (h : Effect s i t) :
    t.status = s.status ∨ i = .hlt ∨ ∃ f, t.status = .faulted f := by
  cases h with
  | hlt => exact .inr (.inl rfl)
  | badFirst | badSecond | pushFault | popFault | callFault | retFault => exact .inr (.inr ⟨_, rfl⟩)
  | _ => exact .inl rfl

/-- Settles O36: a fault of the front leaves Faulted, and the effect fetched, run on a latched state that is Running,
leaves Halted only if it is HLT's. -/
theorem onlyHltHalts : Obligations.OnlyHltHalts := by
  intro s t h hhalted
  have hrunning : s.status = .running := (step_cases h).1
  obtain ⟨f, rfl⟩ | ⟨ir, opA, opB, -, ⟨f, rfl⟩ | ⟨i, hi, he⟩⟩ := step_effect h
  · cases hhalted
  · cases hhalted
  · obtain hkeep | rfl | ⟨f, hf⟩ := he.status_eq_or_hlt_or_faulted
    · rw [State.status_latch, hrunning, hhalted] at hkeep
      cases hkeep
    · exact hi
    · cases hhalted.symm.trans hf

end Sys2Proof.Machine

/-! PROOFS. The load port takes an image byte by byte to where the image load takes it, and shows the same fault when
the image is too long (spec/70_reset_and_hazards.md R111, R116; 60_exceptions.md R95, R96). -/

namespace Sys2Proof.Machine

/-! ### An image grows by a write at its end -/

theorem Memory.write_cons_of_lt {a b : Nat} (h : a < b) (v w : Byte) (m : Memory) :
    (Memory.cons a v m).write b w = Memory.cons a v (m.write b w) := by
  unfold Memory.cons
  split
  · rfl
  · rw [Memory.write, if_neg (Nat.lt_asymm h), if_neg (Nat.ne_of_gt h)]

theorem Memory.write_ofBytes_end (a : Nat) (l : List Byte) (v : Byte) :
    (Memory.ofBytes a l).write (a + l.length) v = Memory.ofBytes a (l ++ [v]) := by
  induction l generalizing a with
  | nil => rfl
  | cons w ws ih =>
    have hlt : a < a + (w :: ws).length := Nat.lt_add_of_pos_right (Nat.succ_pos _)
    have hend : a + (w :: ws).length = a + 1 + ws.length := Nat.add_right_comm a ws.length 1
    rw [List.cons_append, Memory.ofBytes, Memory.ofBytes, Memory.write_cons_of_lt hlt, hend, ih]

/-! ### What a boot leaves -/

theorem State.boot_of_fits (s : State) {image : List Byte} (h : image.length ≤ 256) :
    s.boot image = { s.applyReset with mem := Memory.ofBytes 0 image, status := .running } :=
  if_neg (Nat.not_lt.2 h)

theorem State.boot_of_overlong (s : State) {image : List Byte} (h : 256 < image.length) :
    s.boot image = { s.applyReset with
      mem := overlongMemory image s.applyReset.mem
      status := .faulted (.capacityError image.length) } :=
  if_pos h

theorem State.status_boot_of_fits (s : State) {image : List Byte} (h : image.length ≤ 256) :
    (s.boot image).status = .running := by
  rw [s.boot_of_fits h]

theorem State.status_boot_of_overlong (s : State) {image : List Byte} (h : 256 < image.length) :
    (s.boot image).status = .faulted (.capacityError image.length) := by
  rw [s.boot_of_overlong h]

/-- One byte more in the image is one byte more stored, at the end of the image so far. -/
theorem State.boot_append (s : State) {image : List Byte} (h : image.length < 256) (v : Byte) :
    s.boot (image ++ [v]) = (s.boot image).storeByte image.length v := by
  have hfits : (image ++ [v]).length ≤ 256 := by rw [List.length_append]; exact h
  have hmem : Memory.ofBytes 0 (image ++ [v]) = (Memory.ofBytes 0 image).write image.length v := by
    rw [← Memory.write_ofBytes_end, Nat.zero_add]
  rw [s.boot_of_fits hfits, s.boot_of_fits (Nat.le_of_lt h), hmem]
  rfl

/-! ### The load port while it takes bytes, and once it refuses one -/

/-- The load port after the bytes of `image`: the core as booted so far, and the bytes counted. -/
def State.portAfter (s : State) (image : List Byte) : LoadPort := ⟨s.boot image, BitVec.ofNat 9 image.length⟩

theorem State.portAfter_nil (s : State) : s.portAfter [] = s.openLoad := rfl

/-- Nine bits count every image that fits. -/
theorem State.portAfter_count (s : State) {image : List Byte} (h : image.length ≤ 256) :
    (s.portAfter image).count.toNat = image.length :=
  Nat.mod_eq_of_lt (Nat.lt_of_le_of_lt h (by decide))

/-- The port accepts a next byte until 256 are counted (70_reset_and_hazards.md R116). -/
theorem State.portAfter_accepts (s : State) {image : List Byte} (h : image.length ≤ 256) :
    (s.portAfter image).accepts = true ↔ image.length < 256 := by
  rw [LoadPort.accepts_iff, s.portAfter_count h]
  exact and_iff_right (s.status_boot_of_fits h)

theorem State.offer_portAfter (s : State) {image : List Byte} (h : image.length < 256) (v : Byte) :
    (s.portAfter image).offer v = s.portAfter (image ++ [v]) := by
  have hle := Nat.le_of_lt h
  have hcount : (s.portAfter image).count + 1 = BitVec.ofNat 9 (image ++ [v]).length := by
    rw [List.length_append]; exact (BitVec.ofNat_add _ _).symm
  rw [LoadPort.offer_accepted ((s.portAfter_accepts hle).2 h), s.portAfter_count hle, hcount]
  exact congrArg (LoadPort.mk · _) (s.boot_append h v).symm

/-- Offering an image that fits, byte by byte, is booting it. -/
theorem State.foldl_offer_openLoad (s : State) {image : List Byte} (h : image.length ≤ 256) :
    image.foldl LoadPort.offer s.openLoad = s.portAfter image := by
  induction image using List.reverseRecOn with
  | nil => exact s.portAfter_nil.symm
  | append_singleton image v ih =>
    have hlt : image.length < 256 := by rwa [List.length_append] at h
    rw [List.foldl_concat, ih (Nat.le_of_lt hlt), s.offer_portAfter hlt]

/-- Bytes offered to a port that accepts none leave the fault, however many they are (60_exceptions.md R95). -/
theorem LoadPort.foldl_offer_refused {p : LoadPort} (h : p.accepts = false) (v : Byte) (vs : List Byte) :
    ((v :: vs).foldl LoadPort.offer p).core.status = .faulted (.capacityError 257) := by
  induction vs generalizing p v with
  | nil => exact (LoadPort.offer_refused h v).1
  | cons w ws ih => exact ih (LoadPort.offer_refused h v).2 w

/-- An image that is too long fills the port with its first 256 bytes, and the port refuses the rest. -/
theorem State.foldl_offer_openLoad_overlong (s : State) {image : List Byte} (h : 256 < image.length) :
    (image.foldl LoadPort.offer s.openLoad).core.status = .faulted (.capacityError 257) := by
  have hlen : (image.take 256).length = 256 := List.length_take_of_le (Nat.le_of_lt h)
  have hfull : (s.portAfter (image.take 256)).accepts = false := by
    rw [Bool.eq_false_iff, ne_eq, s.portAfter_accepts hlen.le, hlen]
    exact Nat.lt_irrefl 256
  obtain ⟨v, vs, hrest⟩ : ∃ v vs, image.drop 256 = v :: vs := ⟨_, _, List.drop_eq_getElem_cons h⟩
  rw [← List.take_append_drop 256 image, List.foldl_append, s.foldl_offer_openLoad hlen.le, hrest]
  exact LoadPort.foldl_offer_refused hfull v vs

/-- Settles O42: an image that fits leaves the port's core as booted, and any other ends both ways in CapacityError,
whose code is 1 whatever length is recorded. -/
theorem loadPortLoadsTheImage : Obligations.LoadPortLoadsTheImage := by
  refine fun s image => ⟨fun hfits => ?_, fun hover => ⟨?_, ?_⟩⟩
  · rw [s.foldl_offer_openLoad hfits]
    rfl
  · rw [s.foldl_offer_openLoad_overlong hover]
    rfl
  · rw [s.status_boot_of_overlong hover]
    rfl

end Sys2Proof.Machine

/-! PROOFS. When a step answers a next state, and what a fetch at the top of the address space does (spec/00_scope.md
R10, 40_fetch_decode.md R61, R62, R66). -/

namespace Sys2Proof.Machine

/-- Settles O8: the fetch fault is all that the front of the step does, and any other fetch reads its three bytes. -/
theorem fetchAtTheTopFaultsAndWritesNothing : Obligations.FetchAtTheTopFaultsAndWritesNothing := by
  refine fun s hs => ⟨fun hp htop => step_ends hs (front_fetchFault hp htop), fun hfits => ?_⟩
  rcases fetches_or_faults s with hb | ⟨hp, htop⟩
  · exact hb
  · rcases hfits with hwrap | hlow
    · cases hp.symm.trans hwrap
    · exact absurd htop (Nat.not_le.2 hlow)

/-- A Running state has a next state: the front ends the step, or the instruction fetched has an effect. -/
theorem exists_step_of_running {s : State} (hs : s.status = .running) : ∃ t, step s = .next t := by
  cases hf : front s with
  | ends t => exact ⟨t, step_ends hs hf⟩
  | runs i u =>
    obtain ⟨t, ht⟩ := Effect.total u i
    exact ⟨t, (step_runs hs hf).trans ht.exec_eq⟩

/-- Settles O9: a Running state has a next state, and any other status is the reason why there is none. -/
theorem stepExactlyWhileRunning : Obligations.StepExactlyWhileRunning := fun _ =>
  ⟨exists_step_of_running, fun h => step_stopped (congrArg Status.stopReason h),
    fun _ h => step_stopped (congrArg Status.stopReason h)⟩

/-- Settles O7: the front latches the bytes, advances pc and raises DecodeError. -/
theorem illegalOpcodeEndsTheRun : Obligations.IllegalOpcodeEndsTheRun := fun s ir opA opB hs hb hk =>
  ⟨(s.latch ir opA opB).pc, advanced_latch hb, step_ends hs (front_illegal hb fun k => (hk k).symm)⟩

end Sys2Proof.Machine

/-! PROOFS. Which faults a step raises and what state each leaves (spec/60_exceptions.md R96 to R102). -/

namespace Sys2Proof.Machine

/-- A body that leaves a Running state Faulted met a bad register, or a stack address that fails its check, and wrote
nothing but the decremented sp of a failed push (60_exceptions.md R99, R100, R102). -/
theorem Effect.of_faulted {s t : State} {i : Instr} {f : Fatal} (h : Effect s i t) (hs : s.status = .running)
    (hf : t.status = .faulted f) :
    ((∃ a, f = .badRegister a s.pc0) ∨ ∃ a, f = .addressOutOfRange a s.pc0)
      ∧ ∃ sp, (sp = s.sp ∨ (f = .addressOutOfRange 256 s.pc0 ∧ sp = 256)) ∧ t = (s.setSp sp).raise f := by
  cases h with
  | badFirst | badSecond => cases hf; exact ⟨.inl ⟨_, rfl⟩, s.sp, .inl rfl, rfl⟩
  | popFault | retFault => cases hf; exact ⟨.inr ⟨_, rfl⟩, s.sp, .inl rfl, rfl⟩
  | pushFault ha hk | callFault ha hk =>
    obtain ⟨-, -, hfailed⟩ := State.pushFailed_of_none hk
    rw [hfailed] at hf ⊢
    cases hf
    exact ⟨.inr ⟨_, rfl⟩, 256, .inr ⟨rfl, rfl⟩, rfl⟩
  | hlt => cases hf
  | _ => cases hs.symm.trans hf

/-- What a step that ends Faulted met: a fetch fault, an illegal opcode, or a fault of the body on the latched state. -/
theorem step_faulted {s t : State} {f : Fatal} (h : step s = .next t) (hf : t.status = .faulted f) :
    (s.cfg.addrPolicy = .fault ∧ 254 ≤ s.pc.toNat ∧ (∃ a, f = .addressOutOfRange a s.pc) ∧ t = s.raise f)
      ∨ ∃ ir opA opB, FetchesBytes s ir opA opB
        ∧ (f = .decodeError ir s.pc ∨ (∃ a, f = .badRegister a s.pc) ∨ ∃ a, f = .addressOutOfRange a s.pc)
        ∧ ∃ sp, (sp = s.sp ∨ (f = .addressOutOfRange 256 s.pc ∧ sp = 256))
          ∧ t = ((s.latch ir opA opB).setSp sp).raise f := by
  obtain ⟨hs, ⟨hp, htop, rfl⟩ | ⟨ir, opA, opB, hb, ⟨-, rfl⟩ | ⟨i, -, he⟩⟩⟩ := step_cases h
  · cases hf
    exact .inl ⟨hp, htop, ⟨_, rfl⟩, rfl⟩
  · cases hf
    exact .inr ⟨ir, opA, opB, hb, .inl rfl, s.sp, .inl rfl, rfl⟩
  · obtain ⟨hreason, hstate⟩ := (exec_iff_effect.1 he).of_faulted hs hf
    exact .inr ⟨ir, opA, opB, hb, .inr hreason, hstate⟩

/-- Settles O15: the ALU's fault and the load's fault are none of those a step can meet. -/
theorem noStepRaisesAluOrCapacityError : Obligations.NoStepRaisesAluOrCapacityError := by
  intro s t h
  have hnone {f : Fatal} (hf : t.status = .faulted f) :
      (∀ sel pc0, f ≠ .unsupportedAluOp sel pc0) ∧ ∀ len, f ≠ .capacityError len := by
    obtain ⟨-, -, ⟨a, rfl⟩, -⟩ | ⟨ir, opA, opB, -, rfl | ⟨a, rfl⟩ | ⟨a, rfl⟩, -⟩ := step_faulted h hf
    all_goals exact ⟨nofun, nofun⟩
  exact ⟨fun sel pc0 hf => (hnone hf).1 sel pc0 rfl, fun len hf => (hnone hf).2 len rfl⟩

/-- Settles O35: a fetch fault leaves the state but for its status, and any other fault leaves the latched state, with
sp at 256 after a failed push. -/
theorem faultsArePrecise : Obligations.FaultsArePrecise := by
  intro s t f h hf
  obtain ⟨hp, htop, -, rfl⟩ | ⟨ir, opA, opB, hb, -, sp, hsp, rfl⟩ := step_faulted h hf
  · exact ⟨rfl, rfl, rfl, rfl, rfl, fun _ _ _ hb => absurd hb (no_fetch hp htop), fun _ => rfl⟩
  · refine ⟨rfl, rfl, rfl, rfl, rfl, fun ir' opA' opB' hb' => ?_, fun hnone => absurd ⟨ir, opA, opB, hb⟩ hnone⟩
    obtain ⟨rfl, rfl, rfl⟩ := hb.unique hb'
    exact ⟨rfl, rfl, rfl, rfl, advanced_latch hb, hsp⟩

/-- Settles O14: selector 0b11 is the ALU's one case that raises; the others write a register or fl. -/
theorem aluRaisesOnlyOnSelectorThree : Obligations.AluRaisesOnlyOnSelectorThree := by
  refine fun s sel ra rb => ⟨fun hsel => by subst hsel; rfl, fun hsel => ?_⟩
  obtain ⟨y, hy⟩ | ⟨f, -, hf⟩ | ⟨hthree, -⟩ := alu_cases s sel ra rb
  · exact ⟨_, hy, rfl⟩
  · exact ⟨_, hf, rfl⟩
  · exact absurd hthree hsel

end Sys2Proof.Machine

/-! PROOFS. The parameters and the carry bit of pc over a step (spec/00_scope.md R6, 40_fetch_decode.md R64, R71). -/

namespace Sys2Proof.Machine

theorem Effect.cfg_eq {s t : State} {i : Instr} (h : Effect s i t) : t.cfg = s.cfg := by
  cases h <;> rfl

/-- Settles O34: neither the latch, nor a fault, nor an effect writes the parameters. -/
theorem noStepChangesTheParameters : Obligations.NoStepChangesTheParameters := by
  intro s t h
  obtain ⟨f, rfl⟩ | ⟨ir, opA, opB, -, ⟨f, rfl⟩ | ⟨i, -, he⟩⟩ := step_effect h
  · rfl
  · rfl
  · exact he.cfg_eq

theorem State.pc_jump_lt (s : State) (v : Byte) : (s.jump v).pc.toNat < 256 := by
  rw [State.pc_jump_toNat]; exact v.isLt

/-- A body leaves pc alone or jumps to a byte (44_control.md R92). -/
theorem Effect.pc_eq_or_lt {s t : State} {i : Instr} (h : Effect s i t) : t.pc = s.pc ∨ t.pc.toNat < 256 := by
  cases h with
  | callTable | retObserved | jmp | jeqTaken | jneTaken => exact .inr (State.pc_jump_lt _ _)
  | retTable => exact .inr (State.pc_jump_lt s _)
  | _ => exact .inl rfl

/-- A latched pc of 256 or more is the advanced pc under `fault`, since `wrap8` takes it modulo 256. -/
theorem advanced_of_carry {s : State} {ir opA opB : Byte} (hb : FetchesBytes s ir opA opB)
    (hc : 256 ≤ (s.latch ir opA opB).pc.toNat) :
    s.cfg.addrPolicy = .fault ∧ (s.latch ir opA opB).pc.toNat = s.pc.toNat + 1 + ir.toNat / 64 := by
  obtain ⟨hfault, hwrap⟩ := advanced_latch hb
  cases hp : s.cfg.addrPolicy with
  | fault => exact ⟨rfl, hfault hp⟩
  | wrap8 => exact absurd (hwrap hp ▸ hc) (Nat.not_le.2 (Nat.mod_lt _ (by decide)))

/-- Settles O37: a fetch fault leaves pc where it was, and after the latch nothing but a jump, to a byte, moves it. -/
theorem onlyTheAdvanceSetsThePcCarry : Obligations.OnlyTheAdvanceSetsThePcCarry := by
  intro s t h hc
  have hlatched {ir opA opB : Byte} (hb : FetchesBytes s ir opA opB) (hpc : t.pc = (s.latch ir opA opB).pc) :
      s.cfg.addrPolicy = .fault
        ∧ (t.pc = s.pc
          ∨ ∃ ir opA opB, FetchesBytes s ir opA opB ∧ t.pc.toNat = s.pc.toNat + 1 + ir.toNat / 64) := by
    rw [hpc] at hc ⊢
    obtain ⟨hp, hadv⟩ := advanced_of_carry hb hc
    exact ⟨hp, .inr ⟨ir, opA, opB, hb, hadv⟩⟩
  obtain ⟨-, ⟨hp, -, rfl⟩ | ⟨ir, opA, opB, hb, ⟨-, rfl⟩ | ⟨i, -, he⟩⟩⟩ := step_cases h
  · exact ⟨hp, .inl rfl⟩
  · exact hlatched hb rfl
  · obtain hkept | hjumped := (exec_iff_effect.1 he).pc_eq_or_lt
    · exact hlatched hb hkept
    · exact absurd hc (Nat.not_le.2 hjumped)

end Sys2Proof.Machine

/-! PROOFS. POP undoes PUSH, and the return address of CALL (spec/43_stack.md under R86, 44_control.md R87). -/

namespace Sys2Proof.Machine

/-- Settles O21: POP reads the byte PUSH wrote, at the sp PUSH left, and the increment of sp undoes the decrement. -/
theorem pushThenPopBalances : Obligations.PushThenPopBalances := by
  intro s a b ra rb hw hsp hm ha hb
  have hreach := spDec_reaches_self hw s.cfg.addrPolicy s.sp
  have hread := Memory.read_write_same hm (spDec s.cfg.spWrap s.sp).toNat (s.x ra)
  have hback : spInc s.cfg.spWrap (spDec s.cfg.spWrap s.sp) = s.sp := spInc_spDec (by rw [hw]; exact hsp)
  have hpop := Effect.pop (s := s.pushed (spDec s.cfg.spWrap s.sp).toNat (s.x ra)) hb hreach
  exact ⟨_, _, (Effect.push ha hreach).exec_eq, hpop.exec_eq, (State.x_setX_self _ rb _).trans hread, hback,
    fun _ hi => State.x_setX_of_ne _ hi _⟩

/-- The pc after CALL, whose byte counts one operand, has `pc0 + 2` as its low byte (40_fetch_decode.md R64). -/
theorem low_pc_latch_of_count_one {s : State} {ir opA opB : Byte} (hb : FetchesBytes s ir opA opB)
    (hcount : ir.toNat / 64 = 1) : (s.latch ir opA opB).pc.toNat % 256 = (s.pc.toNat + 2) % 256 := by
  obtain ⟨hfault, hwrap⟩ := advanced_latch hb
  rw [hcount] at hfault hwrap
  cases hp : s.cfg.addrPolicy with
  | fault => rw [hfault hp]
  | wrap8 => rw [hwrap hp, Nat.mod_mod]

/-- Settles O23: CALL's body pushes the low byte of the pc it sees, and under `fault` a fetch succeeds only where
`pc0 + 2` fits in a byte. -/
theorem callPushesTheAddressAfterIt : Obligations.CallPushesTheAddressAfterIt := by
  intro s a ra k hs hmap hm ⟨ir, opA, opB, hb, hd⟩ ha hk
  obtain ⟨-, hcall⟩ := callPushesAndTransfers
  obtain ⟨hpushes, -⟩ := hcall (s.latch ir opA opB) a
  obtain ⟨t, hexec, hread, -⟩ := hpushes ra k ha hm hk
  rw [low_pc_latch_of_count_one hb (operandCount_of_decode_ok hmap hd)] at hread
  refine ⟨t, (step_runs hs (front_runs hb hd)).trans hexec, hread, fun hp => ?_⟩
  have hlow : ¬ 254 ≤ s.pc.toNat := fun htop => no_fetch hp htop hb
  rw [hread, Nat.mod_eq_of_lt (by omega)]

end Sys2Proof.Machine

/-! PROOFS. What reset and a load leave (spec/10_state.md R30, 60_exceptions.md R96, 70_reset_and_hazards.md R108 to
R111). -/

namespace Sys2Proof.Machine

theorem State.x_resetWith (c : Config) (i : Fin 8) : (State.resetWith c).x i = if i = 7 then 255 else 0 := by
  fin_cases i <;> rfl

theorem Memory.read_ofBytes_zero (l : List Byte) (a : Nat) : (Memory.ofBytes 0 l).read a = l.getD a 0 := by
  rw [Memory.read_ofBytes, if_pos (Nat.zero_le a)]; rfl

/-- Settles O40: a boot that fits is the reset state with the image placed at 0. -/
theorem bootLeavesTheResetValues : Obligations.BootLeavesTheResetValues := by
  refine ⟨rfl, fun s image hfits => ?_⟩
  rw [s.boot_of_fits hfits]
  exact ⟨State.x_resetWith s.cfg, rfl, rfl, rfl, rfl, rfl, rfl, rfl, rfl, rfl, Memory.read_ofBytes_zero image⟩

/-- Settles O41: the load leaves the fault, and a Faulted state has no step. -/
theorem overlongImageNeverRuns : Obligations.OverlongImageNeverRuns := by
  intro s image hover
  have hstatus := s.status_boot_of_overlong hover
  refine ⟨hstatus, step_stopped (congrArg Status.stopReason hstatus), ?_, congrArg Status.exitStatus hstatus⟩
  rw [s.boot_of_overlong hover]
  rfl

end Sys2Proof.Machine

/-! PROOFS. The shared operations, and the words of the opcode table (spec/10_state.md R16, R20; 20_memory.md R36;
30_encoding.md R53, R55). -/

namespace Sys2Proof.Machine

/-- Settles O43: the two formulas, and their values at the corners. -/
theorem stackPointerArithmetic : Obligations.StackPointerArithmetic :=
  ⟨fun w sp => ⟨spDec_toNat w sp, spInc_toNat w sp⟩, rfl, rfl, rfl, rfl⟩

/-- Settles O44: the address check answers the byte an access reaches, and fails where it reaches none. -/
theorem addressCheck : Obligations.AddressCheck := fun _ _ =>
  ⟨fun _ => ⟨reaches_of_addrOk, addrOk_of_reaches⟩, none_of_addrOk, addrOk_of_none⟩

/-- Settles O45: the register index is the register an operand byte names, and there is none where it names none. -/
theorem registerIndex : Obligations.RegisterIndex := fun _ _ =>
  ⟨fun _ => ⟨names_of_regIndex, regIndex_of_names⟩, none_of_regIndex, regIndex_of_none⟩

/-- Settles O4: the lookup in the default map, evaluated on each word of the table and then on every byte. -/
theorem opcodeTableWordsDecode : Obligations.OpcodeTableWordsDecode := by
  refine ⟨rfl, rfl, rfl, rfl, rfl, rfl, rfl, rfl, rfl, rfl, rfl, rfl, rfl, rfl, rfl, rfl, ?_⟩
  decide +kernel

end Sys2Proof.Machine

/-! PROOFS. What the host reads off the machine: the exit status, the ports and the printed lines
(spec/42_load_io_halt.md R84, 60_exceptions.md R94, R103, 70_reset_and_hazards.md R116). -/

namespace Sys2Proof.Machine

/-! ### The exit status and the ports -/

theorem Fatal.code_range (f : Fatal) : 1 ≤ f.code ∧ f.code ≤ 5 := by
  cases f <;> simp [Fatal.code]

theorem Status.exitStatus_eq_zero_iff (st : Status) : st.exitStatus = some 0 ↔ st = .halted := by
  cases st with
  | running => exact ⟨nofun, nofun⟩
  | halted => exact ⟨fun _ => rfl, fun _ => rfl⟩
  | faulted f =>
    have hcode : f.code ≠ 0 := Nat.ne_of_gt f.code_range.1
    exact ⟨fun h => absurd (Option.some.inj h) hcode, nofun⟩

theorem Status.exitStatus_eq_none_iff (st : Status) : st.exitStatus = none ↔ st = .running := by
  cases st with
  | running => exact ⟨fun _ => rfl, fun _ => rfl⟩
  | halted | faulted => exact ⟨nofun, nofun⟩

/-- Three bits hold every fault code. -/
theorem Status.faultCode_ports_faulted (f : Fatal) : (Status.faulted f).ports.faultCode.toNat = f.code := by
  obtain ⟨-, hle⟩ := f.code_range
  exact Nat.mod_eq_of_lt (Nat.lt_of_le_of_lt hle (by decide))

/-- Settles O46: the status alone decides the exit status and the ports, and a fault code is neither 0 nor past 5. -/
theorem exitStatusTellsTheEnd : Obligations.ExitStatusTellsTheEnd := by
  refine ⟨fun _ => rfl, fun _ _ => rfl, fun _ _ => rfl, fun _ _ => rfl, fun _ _ => rfl, fun s => ?_⟩
  refine ⟨s.status.exitStatus_eq_zero_iff, s.status.exitStatus_eq_none_iff, fun f hf => ?_,
    s.status.ports_halted, s.status.ports_fault, fun f hf => ?_⟩
  · exact ⟨congrArg Status.exitStatus hf, f.code_range⟩
  · rw [hf, Status.faultCode_ports_faulted]

/-! ### The printed lines -/

/-- Only 0 is written with a leading zero: past 9 the first digit is that of `n / 10`. -/
theorem eq_zero_of_head?_toDigits {n : Nat} (h : (Nat.toDigits 10 n).head? = some '0') : n = 0 := by
  induction n using Nat.strongRecOn with
  | ind n ih =>
    rcases Nat.lt_or_ge n 10 with hlt | hge
    · rw [Nat.toDigits_of_lt_base hlt] at h
      exact Nat.digitChar_eq_zero.1 (Option.some.inj h)
    · rw [Nat.toDigits_of_base_le (by decide) hge, List.head?_append_of_ne_nil _ Nat.toDigits_ne_nil] at h
      have := ih (n / 10) (by omega) h
      omega

/-- Settles O47: the digits are the library's decimal digits of the byte, and they read back as its value. -/
theorem hostLineIsDecimal : Obligations.HostLineIsDecimal := by
  refine fun v => ⟨Nat.toDigits 10 v.toNat, rfl, Nat.toDigits_ne_nil, fun c => ?_, fun hzero => ?_, ?_⟩
  · exact Nat.isDigit_of_mem_toDigits (by decide) (by decide)
  · rw [eq_zero_of_head?_toDigits hzero, Nat.toDigits_zero]
  · have hvalue : Nat.ofDigitChars 10 (Nat.toDigits 10 v.toNat) 0 = v.toNat := Nat.ofDigitChars_ten_toDigits
    rwa [Nat.ofDigitChars_eq_foldl] at hvalue

end Sys2Proof.Machine

/-! PROOFS. The reference sequencing does a step, cycle by cycle (spec/70_reset_and_hazards.md R117 to R120). -/

namespace Sys2Proof.Machine

/-! ### The cycles of the fetch -/

theorem ReachesByte.eq_mod {p : AddrPolicy} {a k : Nat} (h : ReachesByte p a k) : k = a % 256 := by
  rcases h with ⟨hle, rfl⟩ | ⟨-, -, rfl⟩
  · exact (Nat.mod_eq_of_lt (Nat.lt_succ_of_le hle)).symm
  · rfl

/-- The sequencer in cycle F1, with the opcode byte read. -/
def Sequencer.atF1 (s : State) (ir : Byte) : Sequencer := ⟨s, .f1, ir⟩

/-- The sequencer in cycle F2, with the opcode latched and the first operand byte read. -/
def Sequencer.atF2 (s : State) (ir opA : Byte) : Sequencer := ⟨{ s with ir := ir }, .f2, opA⟩

/-- The sequencer in cycle X, with the second operand byte read. -/
def Sequencer.atX (s : State) (ir opA opB : Byte) : Sequencer := ⟨{ s with ir := ir, opA := opA }, .x, opB⟩

section
variable {s : State} {ir opA opB : Byte}

theorem Sequencer.cycle_start (hs : s.status = .running) (hb : FetchesBytes s ir opA opB) (rdata : Byte) :
    (Sequencer.start s rdata).cycle = .atF1 s ir := by
  obtain ⟨a0, a1, a2, h0, h1, h2, rfl, -, -⟩ := hb
  simp [Sequencer.cycle, Sequencer.start, Sequencer.present, Sequencer.atF1, hs, Status.stopReason,
    fetchAddrs_reaches h0 h1 h2, h0.eq_mod]

theorem Sequencer.cycle_atF1 (hs : s.status = .running) (hb : FetchesBytes s ir opA opB) :
    (Sequencer.atF1 s ir).cycle = .atF2 s ir opA := by
  obtain ⟨a0, a1, a2, -, h1, -, -, rfl, -⟩ := hb
  simp [Sequencer.cycle, Sequencer.present, Sequencer.atF1, Sequencer.atF2, hs, Status.stopReason, h1.eq_mod]

theorem Sequencer.cycle_atF2 (hs : s.status = .running) (hb : FetchesBytes s ir opA opB) :
    (Sequencer.atF2 s ir opA).cycle = .atX s ir opA opB := by
  obtain ⟨a0, a1, a2, -, -, h2, -, -, rfl⟩ := hb
  simp [Sequencer.cycle, Sequencer.present, Sequencer.atF2, Sequencer.atX, hs, Status.stopReason, h2.eq_mod]

/-- A fetch fault ends the step in F0, the first cycle. -/
theorem Sequencer.cycle_start_fetchFault (hs : s.status = .running) (hp : s.cfg.addrPolicy = .fault)
    (htop : 254 ≤ s.pc.toNat) (rdata : Byte) :
    (Sequencer.start s rdata).cycle = ⟨s.raise (.addressOutOfRange (lowestFailing s.pc) s.pc), .f0, rdata⟩ := by
  rcases fetchAddrs_cases s.cfg.addrPolicy s.pc with ⟨a0, a1, a2, h0, h1, h2, -⟩ | ⟨-, -, he⟩
  · exact absurd ⟨a0, a1, a2, h0, h1, h2, rfl, rfl, rfl⟩ (no_fetch hp htop)
  · simp [Sequencer.cycle, Sequencer.start, Sequencer.finish, hs, Status.stopReason, he]

/-! ### Cycle X and cycle W -/

@[simp] theorem Sequencer.ir_core_atX : (Sequencer.atX s ir opA opB).core.ir = ir := rfl
@[simp] theorem Sequencer.opA_core_atX : (Sequencer.atX s ir opA opB).core.opA = opA := rfl
@[simp] theorem Sequencer.rdata_atX : (Sequencer.atX s ir opA opB).rdata = opB := rfl

/-- The last latch of cycle X completes the latch of the front. -/
@[simp] theorem Sequencer.latch_core_atX :
    (Sequencer.atX s ir opA opB).core.latch ir opA opB = s.latch ir opA opB := rfl

theorem Sequencer.finish_eq (q : Sequencer) (t : State) : q.finish t = ⟨t, .f0, q.rdata⟩ := rfl

theorem Sequencer.cycle_atX (hs : s.status = .running) :
    (Sequencer.atX s ir opA opB).cycle = (Sequencer.atX s ir opA opB).cycleX := by
  simp [Sequencer.cycle, Sequencer.atX, hs, Status.stopReason]

theorem Sequencer.cycleX_illegal (hk : ∀ k, s.cfg.opcodes.byteOf k ≠ ir) :
    (Sequencer.atX s ir opA opB).cycleX = ⟨(s.latch ir opA opB).raise (.decodeError ir s.pc), .f0, opB⟩ := by
  simp [Sequencer.cycleX, decode_of_unlisted hk, Sequencer.finish_eq]

/-- An instruction of four cycles is done in cycle X, with the effect of its body. -/
theorem Sequencer.cycleX_exec {i : Instr} {t : State} (hd : decode s.cfg.opcodes ir opA opB = .ok i)
    (hi : cycleCount i.mnemonic = 4) (he : Effect (s.latch ir opA opB) i t) :
    (Sequencer.atX s ir opA opB).cycleX = ⟨t, .f0, opB⟩ := by
  have hexec := he.exec_eq
  cases i with
  | pop | ret => cases hi
  | _ => simp [Sequencer.cycleX, hd, hexec, Sequencer.finish_eq]

theorem Sequencer.cycleX_ret (hd : decode s.cfg.opcodes ir opA opB = .ok .ret) :
    (Sequencer.atX s ir opA opB).cycleX = (Sequencer.atX s ir opA opB).readStack (s.latch ir opA opB) none := by
  simp [Sequencer.cycleX, hd]

theorem Sequencer.cycleX_pop {a : Byte} {ra : Fin 8} (hd : decode s.cfg.opcodes ir opA opB = .ok (.pop a))
    (ha : NamesReg s.cfg.regIndexPolicy a ra) : (Sequencer.atX s ir opA opB).cycleX
      = (Sequencer.atX s ir opA opB).readStack (s.latch ir opA opB) (some ra) := by
  simp [Sequencer.cycleX, hd, regIndex_of_names ha]

theorem Sequencer.cycleX_pop_bad {a : Byte} (hd : decode s.cfg.opcodes ir opA opB = .ok (.pop a))
    (ha : NamesNone s.cfg.regIndexPolicy a) : (Sequencer.atX s ir opA opB).cycleX
      = ⟨(s.latch ir opA opB).raise (.badRegister a s.pc), .f0, opB⟩ := by
  simp [Sequencer.cycleX, hd, regIndex_of_none ha, Sequencer.finish_eq]

end

theorem Sequencer.readStack_reaches {t : State} {k : Nat} (hk : ReachesByte t.cfg.addrPolicy t.sp.toNat k)
    (q : Sequencer) (dest : Option (Fin 8)) : q.readStack t dest = ⟨t, .w dest, t.mem.read k⟩ := by
  have hlt : k % 256 = k := Nat.mod_eq_of_lt hk.lt_size
  simp [Sequencer.readStack, addrOk_of_reaches hk, Sequencer.present, hlt]

theorem Sequencer.readStack_none {t : State} (hk : ReachesNone t.cfg.addrPolicy t.sp.toNat) (q : Sequencer)
    (dest : Option (Fin 8)) :
    q.readStack t dest = ⟨t.raise (.addressOutOfRange t.sp.toNat t.pc0), .f0, q.rdata⟩ := by
  simp [Sequencer.readStack, addrOk_of_none hk, Sequencer.finish_eq]

theorem Sequencer.cycle_w_pop {t : State} (ht : t.status = .running) (ra : Fin 8) (v : Byte) :
    Sequencer.cycle ⟨t, .w (some ra), v⟩ = ⟨(t.setX ra v).setSp (spInc t.cfg.spWrap t.sp), .f0, v⟩ := by
  simp [Sequencer.cycle, Sequencer.cycleW, Sequencer.finish_eq, ht, Status.stopReason]

theorem Sequencer.cycle_w_retTable {t : State} (ht : t.status = .running) (hm : t.cfg.callRetMode = .table)
    (v : Byte) : Sequencer.cycle ⟨t, .w none, v⟩ = ⟨(t.jump v).setSp (spInc t.cfg.spWrap t.sp), .f0, v⟩ := by
  simp [Sequencer.cycle, Sequencer.cycleW, Sequencer.finish_eq, ht, Status.stopReason, hm]

theorem Sequencer.cycle_w_retObserved {t : State} (ht : t.status = .running) (hm : t.cfg.callRetMode ≠ .table)
    (v : Byte) : Sequencer.cycle ⟨t, .w none, v⟩ = ⟨t.jump v, .f0, v⟩ := by
  simp [Sequencer.cycle, Sequencer.cycleW, Sequencer.finish_eq, ht, Status.stopReason, hm]

/-! ### The first return to F0 -/

/-- `q` is in F0 again after `k` cycles, not before, and its core is then `t` (70_reset_and_hazards.md R119). -/
structure Sequencer.ReturnsIn (q : Sequencer) (k : Nat) (t : State) : Prop where
  core : (Sequencer.cycles k q).core = t
  phase : (Sequencer.cycles k q).phase = .f0
  first : ∀ j, 1 ≤ j → j < k → (Sequencer.cycles j q).phase ≠ .f0

theorem Sequencer.returnsIn_one {q : Sequencer} {t : State} {r : Byte} (h : q.cycle = ⟨t, .f0, r⟩) :
    q.ReturnsIn 1 t where
  core := congrArg Sequencer.core h
  phase := congrArg Sequencer.phase h
  first _ h1 hlt := absurd h1 (Nat.not_le.2 hlt)

/-- One cycle more, into a phase other than F0. -/
theorem Sequencer.ReturnsIn.succ {q p : Sequencer} {k : Nat} {t : State} (h : p.ReturnsIn k t) (hp : q.cycle = p)
    (hphase : p.phase ≠ .f0) : q.ReturnsIn (k + 1) t := by
  subst hp
  refine ⟨h.core, h.phase, fun j h1 hlt => ?_⟩
  match j with
  | 1 => exact hphase
  | j + 2 => exact h.first (j + 1) (Nat.succ_pos j) (Nat.lt_of_succ_lt_succ hlt)

/-- A stack read that reaches its byte takes one cycle more, W. -/
theorem Sequencer.returnsIn_two_of_read {q : Sequencer} {u t : State} {dest : Option (Fin 8)} {k : Nat} {r : Byte}
    (hx : q.cycle = q.readStack u dest) (hk : ReachesByte u.cfg.addrPolicy u.sp.toNat k)
    (hw : Sequencer.cycle ⟨u, .w dest, u.mem.read k⟩ = ⟨t, .f0, r⟩) : q.ReturnsIn 2 t :=
  (returnsIn_one hw).succ (hx.trans (readStack_reaches hk q dest)) nofun

section
variable {s t : State} {ir opA opB : Byte}

/-- The three cycles of a fetch that succeeds come before cycle X. -/
theorem Sequencer.ReturnsIn.of_atX {k : Nat} (hs : s.status = .running) (hb : FetchesBytes s ir opA opB)
    (h : (Sequencer.atX s ir opA opB).ReturnsIn k t) (rdata : Byte) :
    (Sequencer.start s rdata).ReturnsIn (k + 3) t :=
  ((h.succ (cycle_atF2 hs hb) nofun).succ (cycle_atF1 hs hb) nofun).succ (cycle_start hs hb rdata) nofun

theorem Sequencer.returnsIn_pop {a : Byte} (hs : s.status = .running)
    (hd : decode s.cfg.opcodes ir opA opB = .ok (.pop a)) (he : Effect (s.latch ir opA opB) (.pop a) t) :
    (Sequencer.atX s ir opA opB).ReturnsIn 2 t ∨ ((Sequencer.atX s ir opA opB).ReturnsIn 1 t ∧ ¬ Safe t) := by
  have hx := Sequencer.cycle_atX (ir := ir) (opA := opA) (opB := opB) hs
  cases he with
  | badFirst hi ha =>
    cases hi
    exact .inr ⟨returnsIn_one (hx.trans (cycleX_pop_bad hd ha)), fun hsafe => hsafe _ rfl⟩
  | badSecond hi => cases hi
  | pop ha hk =>
    exact .inl (returnsIn_two_of_read (hx.trans (cycleX_pop hd ha)) hk
      (cycle_w_pop (t := s.latch ir opA opB) hs _ _))
  | popFault ha hk =>
    exact .inr ⟨returnsIn_one ((hx.trans (cycleX_pop hd ha)).trans (readStack_none hk _ _)),
      fun hsafe => hsafe _ rfl⟩

theorem Sequencer.returnsIn_ret (hs : s.status = .running) (hd : decode s.cfg.opcodes ir opA opB = .ok .ret)
    (he : Effect (s.latch ir opA opB) .ret t) :
    (Sequencer.atX s ir opA opB).ReturnsIn 2 t ∨ ((Sequencer.atX s ir opA opB).ReturnsIn 1 t ∧ ¬ Safe t) := by
  have hx := (Sequencer.cycle_atX hs).trans (cycleX_ret hd)
  cases he with
  | badFirst hi | badSecond hi => cases hi
  | retTable hk hm =>
    exact .inl (returnsIn_two_of_read hx hk (cycle_w_retTable (t := s.latch ir opA opB) hs hm _))
  | retObserved hk hm =>
    exact .inl (returnsIn_two_of_read hx hk (cycle_w_retObserved (t := s.latch ir opA opB) hs hm _))
  | retFault hk => exact .inr ⟨returnsIn_one (hx.trans (readStack_none hk _ _)), fun hsafe => hsafe _ rfl⟩

/-- From cycle X on, an instruction takes what is left of its cycles of R120, or a fault cuts a stack read short. -/
theorem Sequencer.returnsIn_atX {i : Instr} (hs : s.status = .running)
    (hd : decode s.cfg.opcodes ir opA opB = .ok i) (he : Effect (s.latch ir opA opB) i t) :
    (∃ k, k + 3 = cycleCount i.mnemonic ∧ (Sequencer.atX s ir opA opB).ReturnsIn k t)
      ∨ ((Sequencer.atX s ir opA opB).ReturnsIn 1 t ∧ ¬ Safe t) := by
  cases i with
  | pop a => exact (returnsIn_pop hs hd he).imp_left fun h => ⟨2, rfl, h⟩
  | ret => exact (returnsIn_ret hs hd he).imp_left fun h => ⟨2, rfl, h⟩
  | _ => exact .inl ⟨1, rfl, returnsIn_one ((cycle_atX hs).trans (cycleX_exec hd rfl he))⟩

theorem cycleCount_range (k : Mnemonic) : 4 ≤ cycleCount k ∧ cycleCount k ≤ 5 := by
  cases k <;> decide

end

/-- The fetch at `pc` reads one instruction. -/
theorem Fetches.eq_of_decode {s : State} {ir opA opB : Byte} {i j : Instr} (hj : Fetches s j)
    (hb : FetchesBytes s ir opA opB) (hd : decode s.cfg.opcodes ir opA opB = .ok i) : j = i := by
  obtain ⟨ir', opA', opB', hb', hd'⟩ := hj
  obtain ⟨rfl, rfl, rfl⟩ := hb.unique hb'
  exact Except.ok.inj (hd'.symm.trans hd)

/-- Settles O48: a fetch fault takes cycle F0 alone; otherwise cycles F0, F1 and F2 come first, then X alone for an
illegal opcode, and X, with W for a stack read, for an instruction. -/
theorem sequencerRefinesTheStep : Obligations.SequencerRefinesTheStep := by
  intro s t rdata h
  obtain ⟨hs, ⟨hp, htop, rfl⟩ | ⟨ir, opA, opB, hb, ⟨hk, rfl⟩ | ⟨i, hd, hexec⟩⟩⟩ := step_cases h
  · have hret := Sequencer.returnsIn_one (Sequencer.cycle_start_fetchFault hs hp htop rdata)
    exact ⟨1, by decide, by decide, hret.core, hret.phase, hret.first, fun _ _ hsafe => absurd rfl (hsafe _)⟩
  · have hx := (Sequencer.cycle_atX hs).trans (Sequencer.cycleX_illegal (opA := opA) (opB := opB) hk)
    have hret := (Sequencer.returnsIn_one hx).of_atX hs hb rdata
    exact ⟨4, by decide, by decide, hret.core, hret.phase, hret.first, fun _ _ hsafe => absurd rfl (hsafe _)⟩
  · obtain ⟨k, hcount, hx⟩ | ⟨hx, hunsafe⟩ := Sequencer.returnsIn_atX hs hd (exec_iff_effect.1 hexec)
    · have hret := hx.of_atX hs hb rdata
      rw [hcount] at hret
      obtain ⟨hfour, hfive⟩ := cycleCount_range i.mnemonic
      exact ⟨_, Nat.le_trans (by decide) hfour, hfive, hret.core, hret.phase, hret.first,
        fun j hj _ => by rw [hj.eq_of_decode hb hd]⟩
    · have hret := hx.of_atX hs hb rdata
      exact ⟨4, by decide, by decide, hret.core, hret.phase, hret.first, fun _ _ hsafe => absurd hsafe hunsafe⟩

/-! ### The output port -/

theorem Sequencer.outPort_of_silent {q p : Sequencer} (hp : q.cycle = p) (h : p.core.out = q.core.out) :
    q.outPort = none := by
  rw [Sequencer.outPort, hp, h, List.drop_length]
  rfl

theorem Sequencer.outPort_of_emit {q p : Sequencer} {v : Byte} (hp : q.cycle = p)
    (h : p.core.out = q.core.out ++ [v]) : q.outPort = some v := by
  rw [Sequencer.outPort, hp, h, List.drop_left]
  rfl

/-- Settles O49: the three cycles of the fetch write no output, and cycle X appends PRN's byte. -/
theorem outPortFiresOncePerPrn : Obligations.OutPortFiresOncePerPrn := by
  intro s a r rdata hs ⟨ir, opA, opB, hb, hd⟩ ha j hj
  have hstart := Sequencer.cycle_start hs hb rdata
  have hf1 := Sequencer.cycle_atF1 hs hb
  have hf2 := Sequencer.cycle_atF2 hs hb
  have hx := (Sequencer.cycle_atX hs).trans (Sequencer.cycleX_exec hd rfl (.prn ha))
  match j with
  | 0 => exact Sequencer.outPort_of_silent hstart rfl
  | 1 =>
    have hat : Sequencer.cycles 1 (Sequencer.start s rdata) = .atF1 s ir := hstart
    rw [hat]
    exact Sequencer.outPort_of_silent hf1 rfl
  | 2 =>
    have hat : Sequencer.cycles 2 (Sequencer.start s rdata) = .atF2 s ir opA := (congrArg _ hstart).trans hf1
    rw [hat]
    exact Sequencer.outPort_of_silent hf2 rfl
  | 3 =>
    have hat : Sequencer.cycles 3 (Sequencer.start s rdata) = .atX s ir opA opB :=
      (congrArg (fun q => q.cycle.cycle) hstart).trans ((congrArg _ hf1).trans hf2)
    rw [hat]
    exact Sequencer.outPort_of_emit hx rfl

end Sys2Proof.Machine
